-- ==== Sys2Proof/Word.lean ====
section
/-! DEFINITION. The widths of the PTFC: bytes, 16-bit and 64-bit registers, byte sequences
(00_scope.md R9, R11). Everything is unsigned. -/

namespace Sys2Proof

/-- `u8` of 00_scope.md R9. -/
abbrev Byte := BitVec 8

/-- `u16` of 00_scope.md R9. -/
abbrev Half := BitVec 16

/-- `u64` of 00_scope.md R9: an Address, and the widest register value (10_state.md R21). -/
abbrev DWord := BitVec 64

/-- A byte sequence of 00_scope.md R11. -/
abbrev Bytes := List Byte

end Sys2Proof
end

