-- ==== Sys2Proof/Syntax.lean ====
section
/-! DEFINITION. The 18 commands of 30_encoding.md R112. No command has a field: every operand is
implicit (R110). -/

namespace Sys2Proof

/-- One constructor per row of spec/opcode_table.json. -/
inductive Instr where
  | nop   -- do nothing (R215)
  | clr   -- empty IN, OUT and FQ (R216)
  | otoi  -- copy OUT to IN (R217)
  | srst  -- software reset (R218)
  | osum  -- outer checksum of IN (R131)
  | ovfy  -- verify the outer checksum of the frame in IN (R133)
  | icrc  -- inner CRC-16 of the message in IN (R142)
  | encu  -- build a unicast frame around IN (R150)
  | encd  -- build the discovery frame (R153)
  | encb  -- build a broadcast bus-relay frame around IN (R155)
  | escf  -- escape the frame in IN (R159)
  | decf  -- extract and decode one outer frame from IN (R162)
  | ienc  -- build an inner message from BCMD, BOFF and IN (R181)
  | iencr -- build an inner read request (R183)
  | iencw -- build an inner write request around IN (R185)
  | idec  -- decode the inner message in IN (R188)
  | demux -- split IN into candidate frames (R201)
  | fpop  -- move the next candidate frame to OUT (R205)
  deriving DecidableEq, Repr

end Sys2Proof
end

