-- ==== Sys2Proof/Config.lean ====
section
/-! DEFINITION. What an implementation fixes: the parameters of 00_scope.md R8 that the PTFC depends
on, as one record, and the values that the spec leaves open, as constants without a body. -/

namespace Sys2Proof

/-- The inner CRC's update function, a configuration field of the model (40_checksum.md R139).
`nibbleTables` is the candidate update of R140 over two tables of 16 entries (CRC_HI, CRC_LO of
00_scope.md R8). `unknown` is any total function at all: a statement about every `CrcUnit` holds for
every instantiation of `CrcUpdate` (R143). -/
inductive CrcUnit where
  | nibbleTables (hi lo : Vector Byte 16)
  | unknown (which : Nat)
  deriving DecidableEq, Repr

/-- The parameters of 00_scope.md R8 that a command or a reset reads. -/
structure Params where
  bufCap : Nat
  txType : Byte
  txFrameId : Byte
  txReserved : Byte
  bcastAddr : DWord
  escByte : Byte
  escXor : Byte
  crc : CrcUnit
  crcInit : Half
  innerDataMax : Nat
  innerMin : Nat
  busDest : Byte
  busSrc : Byte
  deriving DecidableEq, Repr

/-- BUS_DEST: OPEN, no default (00_scope.md R8, 93_implementation_defined.md U5). DESIGN CHOICE
(log entry 3), safe: no proof can learn its value. -/
opaque Config.busDest : Byte

/-- BUS_SRC: OPEN, no default (00_scope.md R8, 93_implementation_defined.md U5). DESIGN CHOICE
(log entry 3), safe. -/
opaque Config.busSrc : Byte

/-- The update functions that `CrcUnit.unknown` names (93_implementation_defined.md U1): nothing is
known of them but that they are functions (40_checksum.md R139). -/
opaque Config.unknownCrcUpdate : Nat → Half → Byte → Half

/-- A byte that "any value" may stand for (93_implementation_defined.md U8): the host's read of OBUF
at or beyond OLEN. The argument is drawn from a counter of the state, so two reads need not agree. -/
opaque Config.anyByte : Nat → Byte

/-- The unspecified byte of IBUF at an address nothing has written since the reset of the given
number (10_state.md R38). It is one value until it is written, since a read has no side effect
(20_memory.md R67). Arguments: the number of the reset, the address. -/
opaque Config.staleByte : Nat → Nat → Byte

end Sys2Proof
end

