-- ==== Sys2Proof/Machine/Access.lean ====
section
/-! DEFINITION. What reaches the PTFC from outside (20_memory.md R60, R70): the register numbers, the
host's accesses and the reset input, and which accesses the spec gives no meaning
(93_implementation_defined.md U9). -/

namespace Sys2Proof.Machine

/-- The 28 registers of 10_state.md R21, in the order of their numbers. -/
inductive Reg where
  | cmd | status | errlog | cfg | txtype | txfid | txrsvd | addr | bdest | bsrc | bcmd | boff | breq | ilen
  | olen | rlen | rtype | rfid | rsum | rpos | rcrc | blen | ddest | dsrc | dcmd | doff | dcrc | fcnt
  deriving DecidableEq, Repr

/-- The two byte-addressed spaces of 20_memory.md R60. -/
inductive Space where
  | ibuf
  | obuf
  deriving DecidableEq, Repr

/-- One thing the outside world does to the PTFC (20_memory.md R70, 70_reset_and_hazards.md R310). -/
inductive Event where
  /-- The host writes a value to the register of that number; to CMD, it executes (R22). -/
  | writeReg (num : Nat) (val : DWord)
  /-- The host reads the register of that number (R34). -/
  | readReg (num : Nat)
  /-- `MemWrite(space, addr, n, v)` (R65); to OBUF it is ignored (R36). -/
  | writeBuf (space : Space) (addr : Nat) (bytes : Bytes)
  /-- `MemRead(space, addr, n)` (R65). -/
  | readBuf (space : Space) (addr n : Nat)
  /-- Hardware reset (R310; log entry 12). -/
  | hardReset
  deriving DecidableEq, Repr

/-- What a read gave the host. -/
inductive Answer where
  | reg (num : Nat) (val : DWord)
  | bytes (space : Space) (addr : Nat) (bs : Bytes)
  deriving DecidableEq, Repr

/-- Why the spec offers the host no such access (93_implementation_defined.md U9). -/
inductive AccessProblem where
  | noSuchRegister (num : Nat)
  | valueTooWide (num : Nat)
  | outsideBuffer (space : Space) (addr n : Nat)
  deriving DecidableEq, Repr

/-- The registers by number (10_state.md R21). -/
def allRegs : List Reg :=
  [.cmd, .status, .errlog, .cfg, .txtype, .txfid, .txrsvd, .addr, .bdest, .bsrc, .bcmd, .boff, .breq,
   .ilen, .olen, .rlen, .rtype, .rfid, .rsum, .rpos, .rcrc, .blen, .ddest, .dsrc, .dcmd, .doff, .dcrc,
   .fcnt]

/-- Register number `num`, none above 27. -/
def Reg.ofNumber (num : Nat) : Option Reg := allRegs[num]?

/-- The number of a register (10_state.md R21). -/
def Reg.number : Reg → Nat
  | .cmd => 0 | .status => 1 | .errlog => 2 | .cfg => 3 | .txtype => 4 | .txfid => 5 | .txrsvd => 6
  | .addr => 7 | .bdest => 8 | .bsrc => 9 | .bcmd => 10 | .boff => 11 | .breq => 12 | .ilen => 13
  | .olen => 14 | .rlen => 15 | .rtype => 16 | .rfid => 17 | .rsum => 18 | .rpos => 19 | .rcrc => 20
  | .blen => 21 | .ddest => 22 | .dsrc => 23 | .dcmd => 24 | .doff => 25 | .dcrc => 26 | .fcnt => 27

/-- The width of a register in bits (10_state.md R21). -/
def Reg.width : Reg → Nat
  | .addr => 64
  | .errlog | .boff | .ilen | .olen | .rlen | .rpos | .rcrc | .doff | .dcrc | .fcnt => 16
  | .cmd | .status | .cfg | .txtype | .txfid | .txrsvd | .bdest | .bsrc | .bcmd | .breq | .rtype
  | .rfid | .rsum | .blen | .ddest | .dsrc | .dcmd => 8

/-- What is wrong with an access to a register, if anything: no such number (U9), or a value that the
register's width cannot hold (registers are written whole, 20_memory.md R64; log entry 10). -/
def regProblem (num : Nat) (val : DWord) : Option AccessProblem :=
  match Reg.ofNumber num with
  | none => some (.noSuchRegister num)
  | some r => if val.toNat < 2 ^ r.width then none else some (.valueTooWide num)

/-- What is wrong with an access to a buffer, if anything: `addr + n > BUF_CAP` (20_memory.md R65). -/
def bufProblem (cap : Nat) (space : Space) (addr n : Nat) : Option AccessProblem :=
  if addr + n ≤ cap then none else some (.outsideBuffer space addr n)

/-- What is wrong with an event, if anything. -/
def Event.problem (cap : Nat) : Event → Option AccessProblem
  | .writeReg num val => regProblem num val
  | .readReg num => regProblem num 0
  | .writeBuf sp a bs => bufProblem cap sp a bs.length
  | .readBuf sp a n => bufProblem cap sp a n
  | .hardReset => none

end Sys2Proof.Machine
end

