-- ==== Sys2Proof/WellFormed.lean ====
section
/-! DEFINITION. Which instructions and which host accesses are well formed. -/

namespace Sys2Proof

/-- Every command is well formed: it has no field to check (30_encoding.md R110). -/
def Instr.wf : Instr → Bool
  | .nop | .clr | .otoi | .srst => true
  | .osum | .ovfy | .icrc => true
  | .encu | .encd | .encb | .escf | .decf => true
  | .ienc | .iencr | .iencw | .idec => true
  | .demux | .fpop => true

/-- An event is well formed when the spec offers the host that move: a register number of 0 to 27, a
value of the register's width, a buffer access inside BUF_CAP (93_implementation_defined.md U9). -/
def Machine.Event.wf (cap : Nat) (e : Machine.Event) : Bool := (e.problem cap).isNone

end Sys2Proof
end

