-- ==== Sys2Proof/Decode.lean ====
section
/-! DEFINITION. The command format C8 (30_encoding.md R110): all 8 bits are the opcode. -/

namespace Sys2Proof

/-- Why a byte is no command: it is one of the 238 unassigned opcodes (30_encoding.md R114). -/
inductive Reject where
  | illegalOpcode (op : Byte)
  deriving DecidableEq, Repr

/-- A row of the opcode map: the command's bits are `pattern` under `mask`. -/
structure OpcodeRow where
  mask : Byte
  pattern : Byte
  instr : Instr
  deriving DecidableEq, Repr

/-- The opcode map of 30_encoding.md R112; a decoder matches all 8 bits (R113). -/
def opcodeRows : List OpcodeRow :=
  [⟨0xFF, 0x00, .nop⟩, ⟨0xFF, 0x01, .clr⟩, ⟨0xFF, 0x02, .otoi⟩, ⟨0xFF, 0x03, .srst⟩,
   ⟨0xFF, 0x10, .osum⟩, ⟨0xFF, 0x11, .ovfy⟩, ⟨0xFF, 0x12, .icrc⟩,
   ⟨0xFF, 0x20, .encu⟩, ⟨0xFF, 0x21, .encd⟩, ⟨0xFF, 0x22, .encb⟩, ⟨0xFF, 0x23, .escf⟩, ⟨0xFF, 0x24, .decf⟩,
   ⟨0xFF, 0x30, .ienc⟩, ⟨0xFF, 0x31, .iencr⟩, ⟨0xFF, 0x32, .iencw⟩, ⟨0xFF, 0x33, .idec⟩,
   ⟨0xFF, 0x40, .demux⟩, ⟨0xFF, 0x41, .fpop⟩]

/-- The command an opcode selects (30_encoding.md R112), or why there is none (R114). -/
def decode (op : Byte) : Except Reject Instr :=
  match opcodeRows.find? (fun r => op &&& r.mask == r.pattern) with
  | some r => .ok r.instr
  | none => .error (.illegalOpcode op)

/-- The opcode of a command (30_encoding.md R112). -/
def encode : Instr → Byte
  | .nop => 0x00 | .clr => 0x01 | .otoi => 0x02 | .srst => 0x03
  | .osum => 0x10 | .ovfy => 0x11 | .icrc => 0x12
  | .encu => 0x20 | .encd => 0x21 | .encb => 0x22 | .escf => 0x23 | .decf => 0x24
  | .ienc => 0x30 | .iencr => 0x31 | .iencw => 0x32 | .idec => 0x33
  | .demux => 0x40 | .fpop => 0x41

/-- The command the decoder reads from an instruction whose bits are `w`, numbered as the opcode table
numbers them. A command is one byte (30_encoding.md R110): a table word that has more bits set is none. -/
def decodeTableWord (nbits w : Nat) : Option Instr :=
  if nbits = 8 ∧ w < 256 then (decode (BitVec.ofNat 8 w)).toOption else none

end Sys2Proof
end

