-- ==== Sys2Proof/Machine/Constants.lean ====
section
/-! DEFINITION. The constants of 00_scope.md R7 and the defaults of the parameters of R8. -/

namespace Sys2Proof.Machine

/-- START: first byte of every outer frame. -/
def start : Byte := 0x7E

/-- UNI_OVERHEAD: outer length field minus payload size in the addressed shape. -/
abbrev uniOverhead : Nat := 11

/-- ESC_SET: the bytes subject to transmit escaping. -/
def escSet : Bytes := [0x7E, 0x7D, 0x11, 0x13]

/-- DISC_FRAME: the discovery broadcast frame (30_encoding.md R95). -/
def discFrame : Bytes := [0x7E, 0x00, 0x04, 0x08, 0x01, 0x4E, 0x44, 0x64]

/-- CMD_READ, the byte 'R'; its code is the spec's general knowledge (00_scope.md R9). PRESUMED
(log entry 4). -/
def cmdRead : Byte := 0x52

/-- CMD_WRITE, the byte 'W'; its code is the spec's general knowledge (00_scope.md R9). PRESUMED
(log entry 4). -/
def cmdWrite : Byte := 0x57

/-- PAGE: most data bytes in a write request. -/
abbrev page : Nat := 12

/-- The bytes of an inner message before its data: the 8 of `8 + k` (30_encoding.md R97, R98). -/
abbrev innerHeader : Nat := 8

/-- CRC_HI, the candidate's high table (40_checksum.md R141). UNVERIFIED, unsafe (log entry 5). -/
def crcHiDefault : Vector Byte 16 :=
  #v[0x00, 0xA0, 0xE0, 0x40, 0x60, 0xC0, 0x80, 0x20,
     0xC0, 0x60, 0x20, 0x80, 0xA0, 0x00, 0x40, 0xE0]

/-- CRC_LO, the candidate's low table (40_checksum.md R141). UNVERIFIED, unsafe (log entry 5). -/
def crcLoDefault : Vector Byte 16 :=
  #v[0x00, 0x01, 0x03, 0x02, 0x07, 0x06, 0x04, 0x05,
     0x0E, 0x0F, 0x0D, 0x0C, 0x09, 0x08, 0x0A, 0x0B]

/-- The candidate `CrcUpdate` of 40_checksum.md R140 with the tables of R141. -/
def crcCandidate : CrcUnit := .nibbleTables crcHiDefault crcLoDefault

/-- Every parameter at the default of 00_scope.md R8; BUS_DEST and BUS_SRC, which have none, are the
open constants of Config (log entries 3, 4, 5, 11). -/
def defaultParams : Params where
  bufCap := 1024
  txType := 0x00
  txFrameId := 0x00
  txReserved := 0x00
  bcastAddr := 0x000000000000FFFF
  escByte := 0x7D
  escXor := 0x20
  crc := crcCandidate
  crcInit := 0x0000
  innerDataMax := 247
  innerMin := 8
  busDest := Config.busDest
  busSrc := Config.busSrc

/-- The one constraint 00_scope.md R8 puts on a parameter: BUF_CAP is 540 to 4096. -/
def capLegal (p : Params) : Bool := decide (540 ≤ p.bufCap) && decide (p.bufCap ≤ 4096)

end Sys2Proof.Machine
end

