-- ==== Sys2Proof/Machine/State.lean ====
section
/-! DEFINITION. The complete state of the PTFC (10_state.md R20), its reset value (R44,
70_reset_and_hazards.md R310), and the ways a step can stop. -/

namespace Sys2Proof.Machine

/-- The bytes of a buffer that something has written since reset, as pairs of address and byte, the
addresses strictly rising. A byte that is not listed has no value (10_state.md R38; log entry 6). -/
abbrev Mem := List Host.Cell

/-- Why the machine stops with a fault. -/
inductive Fault where
  /-- A command whose IN covers an IBUF byte that nothing has written since reset or SRST (10_state.md
  R38, 93_implementation_defined.md U7); the argument is the least such address. Raised by every command
  that reads IN. Safe: hardware would compute on a stale byte. -/
  | uninitialisedInput (addr : Nat)
  deriving DecidableEq, Repr

/-- Why the model has no meaning for what it was given. -/
inductive Refusal where
  /-- A command without a meaning in this model. Raised by no arm of exec: all 18 have theirs. Safe. -/
  | notModelled (mnemonic : String)
  /-- A host access to a register number above 27 (10_state.md R34, 93 U9). Raised by the host's
  register reads and writes. Safe. -/
  | noSuchRegister (num : Nat)
  /-- A host write of a value wider than the register (registers are written whole, at their own width,
  10_state.md R21; log entry 10). Raised by the host's register writes. Safe. -/
  | valueTooWide (num : Nat)
  /-- A host buffer access past BUF_CAP (20_memory.md R65, 93 U9). Raised by the host's buffer reads
  and writes. Safe. -/
  | outsideBuffer (space : Space) (addr n : Nat)
  deriving DecidableEq, Repr

/-- The errors a command can end with (60_exceptions.md R280). -/
inductive Err where
  | ill      -- the value written to CMD is not an assigned opcode
  | noStart  -- IN holds no start byte
  | short    -- IN ends too early, or a declared length is below the minimum
  | ochk     -- stored outer checksum differs from the computed one
  | icrc     -- stored inner CRC differs from the computed one
  | len      -- a length does not fit its field
  | ovf      -- the result does not fit OBUF
  | empty    -- FPOP with FQ empty
  | arg      -- more than 12 data bytes offered to IENCW
  deriving DecidableEq, Repr

/-- The 28 registers (10_state.md R21), IBUF, OBUF and FQ (R20), then the model's own fields. -/
structure State where
  cmd : Byte
  status : Byte
  errlog : Half
  cfg : Byte
  txtype : Byte
  txfid : Byte
  txrsvd : Byte
  addr : DWord
  bdest : Byte
  bsrc : Byte
  bcmd : Byte
  boff : Half
  breq : Byte
  ilen : Half
  olen : Half
  rlen : Half
  rtype : Byte
  rfid : Byte
  rsum : Byte
  rpos : Half
  rcrc : Half
  blen : Byte
  ddest : Byte
  dsrc : Byte
  dcmd : Byte
  doff : Half
  dcrc : Half
  fcnt : Half
  ibuf : Mem
  obuf : Mem
  fq : List Bytes
  -- The model's own fields, no state of the PTFC (log entries 1, 2, 7, 8, 9):
  params : Params        -- the parameters of 00_scope.md R8; no step changes them
  pending : List Event   -- what the outside does next, in order
  answer : Option Answer -- what the host's last read gave
  fresh : Nat            -- counter of the free bytes drawn so far
  epoch : Nat            -- number of resets so far
  deriving DecidableEq, Repr

/-- The machine right after hardware reset, for given parameters (70_reset_and_hazards.md R310). -/
def State.powerOn (p : Params) : State where
  cmd := 0x00
  status := 0x00
  errlog := 0x0000
  cfg := 0x00
  txtype := p.txType
  txfid := p.txFrameId
  txrsvd := p.txReserved
  addr := 0
  bdest := p.busDest
  bsrc := p.busSrc
  bcmd := 0x00
  boff := 0x0000
  breq := 0x0C
  ilen := 0
  olen := 0
  rlen := 0
  rtype := 0
  rfid := 0
  rsum := 0
  rpos := 0
  rcrc := 0
  blen := 0
  ddest := 0
  dsrc := 0
  dcmd := 0
  doff := 0
  dcrc := 0
  fcnt := 0
  ibuf := []
  obuf := []
  fq := []
  params := p
  pending := []
  answer := none
  fresh := 0
  epoch := 0

/-- The machine right after hardware reset (R310), every parameter at its default (00_scope.md R8). -/
def State.reset : State := State.powerOn defaultParams

end Sys2Proof.Machine
end

