-- ==== Sys2Proof/Machine/Flags.lean ====
section
/-! DEFINITION. STATUS, ERRLOG and the condition flags (10_state.md R23, R24, R39; 60_exceptions.md
R280). -/

namespace Sys2Proof.Machine

/-- The code of an error in `STATUS.ERR` (60_exceptions.md R280). -/
def Err.code : Err → BitVec 4
  | .ill => 1 | .noStart => 2 | .short => 3 | .ochk => 4 | .icrc => 5
  | .len => 6 | .ovf => 7 | .empty => 8 | .arg => 9

/-- ERRLOG bit `n` of the error with code `n` (10_state.md R24). -/
def Err.logBit (e : Err) : Half := 1#16 <<< e.code.toNat

/-- ERRLOG bit 10, ILENBAD (10_state.md R24, R29). -/
def ilenBad : Half := 1#16 <<< 10

/-- The STATUS byte (10_state.md R23): bit 7 reads 0, FQNE 6, CRCOK 5, CKOK 4, ERR 3:0. -/
def statusByte (err : BitVec 4) (ckok crcok fqne : Bool) : Byte :=
  0#1 ++ BitVec.ofBool fqne ++ BitVec.ofBool crcok ++ BitVec.ofBool ckok ++ err

/-- `FCNT > 0` (10_state.md R33). -/
def fqNonEmpty (s : State) : Bool := decide (0 < s.fcnt.toNat)

/-- `STATUS.ERR` (10_state.md R23). -/
def statusErr (b : Byte) : BitVec 4 := b.extractLsb' 0 4

/-- `STATUS.CKOK` (10_state.md R23). -/
def statusCkok (b : Byte) : Bool := b.getLsbD 4

/-- `STATUS.CRCOK` (10_state.md R23). -/
def statusCrcok (b : Byte) : Bool := b.getLsbD 5

/-- `STATUS.FQNE` (10_state.md R23). -/
def statusFqne (b : Byte) : Bool := b.getLsbD 6

end Sys2Proof.Machine
end

