-- ==== Sys2Proof/Machine/Operands.lean ====
section
/-! DEFINITION. The operand forms: how registers and byte sequences are split into wire bytes and put
together again (30_encoding.md R111, 20_memory.md R63, 00_scope.md R10 to R12). -/

namespace Sys2Proof.Machine

/-- `hi8(v) = v[15:8]` (00_scope.md R10). -/
def hi8 (v : Half) : Byte := v.extractLsb' 8 8

/-- `lo8(v) = v[7:0]` (00_scope.md R10). -/
def lo8 (v : Half) : Byte := v.extractLsb' 0 8

/-- `256*first + second`: a 16-bit field sent most significant byte first (outer length, R63). -/
def msbFirst (first second : Byte) : Nat := 256 * first.toNat + second.toNat

/-- `first + 256*second`: a 16-bit field sent least significant byte first (inner crc and offset, R63). -/
def lsbFirst (first second : Byte) : Half := second ++ first

/-- The address bytes `a[i] = ADDR[63-8i : 56-8i]`, `i` from 0 to 7 (30_encoding.md R111). -/
def addrBytes (a : DWord) : Bytes :=
  [a.extractLsb' 56 8, a.extractLsb' 48 8, a.extractLsb' 40 8, a.extractLsb' 32 8,
   a.extractLsb' 24 8, a.extractLsb' 16 8, a.extractLsb' 8 8, a.extractLsb' 0 8]

/-- `s[i]` (00_scope.md R11), for an index in range: every definition that uses it checks the length of `s`
beside it, so the 0 past the end never shows. -/
def byteAt (s : Bytes) (i : Nat) : Byte := s.getD i 0

/-- `s[a .. a+n)` (00_scope.md R11). -/
def slice (s : Bytes) (a n : Nat) : Bytes := (s.drop a).take n

/-- `sum(s)`: the sum of the bytes as natural numbers (00_scope.md R11). -/
def byteSum (s : Bytes) : Nat := (s.map BitVec.toNat).sum

/-- `CFG.ESC`, bit 0 (10_state.md R25). -/
def cfgEsc (s : State) : Bool := s.cfg.getLsbD 0

/-- `CFG.STRICT`, bit 1 (10_state.md R25). -/
def cfgStrict (s : State) : Bool := s.cfg.getLsbD 1

end Sys2Proof.Machine
end

