-- ==== Sys2Proof/Machine/Ops.lean ====
section
/-! DEFINITION. The named operations over the buffers and the registers (00_scope.md R12): reading and
writing a buffer, IN, OUT, ending a command, `raise`, and reset. -/

namespace Sys2Proof.Machine

/-- The outcome of a command or a step. -/
abbrev Result := Host.Outcome State Fault Refusal

/-! ## Buffers -/

/-- The canonical form of a buffer: the addresses strictly rise. -/
abbrev Mem.wf (m : Mem) : Prop := m.Pairwise (fun x y => x.1 < y.1)

/-- The byte at an address, none where nothing has written since reset (10_state.md R38). -/
def Mem.read : Mem → Nat → Option Byte
  | [], _ => none
  | (k, v) :: rest, a => if k = a then some v else Mem.read rest a

/-- Write one byte. An unlisted byte has no value, so no write removes an entry. -/
def Mem.write : Mem → Nat → Byte → Mem
  | [], a, b => [(a, b)]
  | (k, v) :: rest, a, b =>
    if a < k then (a, b) :: (k, v) :: rest
    else if a = k then (a, b) :: rest
    else (k, v) :: Mem.write rest a b

/-- `MemWrite(space, addr, n, v)`: `n` single-byte writes in ascending address order (20_memory.md R65). -/
def Mem.writeBytes (m : Mem) (addr : Nat) : Bytes → Mem
  | [] => m
  | b :: bs => Mem.writeBytes (Mem.write m addr b) (addr + 1) bs

/-- `MemRead(space, addr, n)`, or the least address whose byte has no value. -/
def Mem.readBytes (m : Mem) (addr : Nat) : Nat → Except Nat Bytes
  | 0 => .ok []
  | n + 1 =>
    match Mem.read m addr, Mem.readBytes m (addr + 1) n with
    | none, _ => .error addr
    | some _, .error a => .error a
    | some b, .ok bs => .ok (b :: bs)

/-! ## IN and OUT -/

/-- `IN = IBUF[0..ILEN)` (00_scope.md R12), or the least address of it that nothing has written. -/
def inBytes (s : State) : Except Nat Bytes := s.ibuf.readBytes 0 s.ilen.toNat

/-- A command reads IN: where IN covers a byte that nothing has written, the model faults (10_state.md
R38); else it goes on with the bytes (log entry 6). -/
def withIn (s : State) (k : Bytes → Result) : Result :=
  match inBytes s with
  | .error a => .fault (.uninitialisedInput a)
  | .ok b => k b

/-- `OUT <- f`: `MemWrite(OBUF, 0, |f|, f)`, then `OLEN <- |f|` (00_scope.md R12). -/
def State.setOut (s : State) (f : Bytes) : State :=
  { s with obuf := s.obuf.writeBytes 0 f, olen := BitVec.ofNat 16 f.length }

/-- One byte of OBUF as it can be read: the byte held below OLEN, any value at or beyond it
(10_state.md R38, 93 U8). `i` tells the free bytes of one read apart (log entry 8). -/
def outByte (s : State) (a i : Nat) : Byte :=
  if a < s.olen.toNat then (s.obuf.read a).getD (Config.anyByte (s.fresh + i))
  else Config.anyByte (s.fresh + i)

/-- One byte of IBUF as the host reads it: the byte written last, or the unspecified byte that stands
there (10_state.md R38; log entry 7). -/
def inByte (s : State) (a : Nat) : Byte :=
  (s.ibuf.read a).getD (Config.staleByte s.epoch a)

/-- `MemRead(OBUF, addr, n)`. -/
def outRead (s : State) (addr n : Nat) : Bytes := (List.range n).map (fun i => outByte s (addr + i) i)

/-- `MemRead(IBUF, addr, n)` by the host. -/
def inRead (s : State) (addr n : Nat) : Bytes := (List.range n).map (fun i => inByte s (addr + i))

/-! ## The end of a command -/

/-- `STATUS <- ERR=0, CKOK=ckok, CRCOK=crcok, FQNE=(FCNT>0)` (10_state.md R23). -/
def State.finish (s : State) (ckok crcok : Bool) : State :=
  { s with status := statusByte 0 ckok crcok (fqNonEmpty s) }

/-- `raise e` (60_exceptions.md R281): STATUS holds the code, ERRLOG bit `e` is set, nothing else
changes. There is no trap: nothing is saved and control goes nowhere (R287); no return either (R288). -/
def State.raise (s : State) (e : Err) : State :=
  { s with status := statusByte e.code false false (fqNonEmpty s), errlog := s.errlog ||| e.logBit }

/-! ## Reset -/

/-- Every register at its reset value but CMD, FQ empty, the buffers' bytes unspecified
(70_reset_and_hazards.md R310, R311). The model's own fields go on: the parameters, what the outside
does next, the host's last answer, the counter of free bytes; the epoch advances, so that the bytes of
IBUF that count as unwritten are unspecified anew (log entry 12). -/
def State.reinit (s : State) (cmd : Byte) : State :=
  { State.powerOn s.params with
    cmd := cmd, pending := s.pending, answer := s.answer, fresh := s.fresh, epoch := s.epoch + 1 }

end Sys2Proof.Machine
end

