-- ==== Sys2Proof/Machine/Wire.lean ====
section
/-! DEFINITION. The functions of the source over byte sequences: the outer checksum, the inner CRC, the
frame shapes, escaping, the location of a frame, the inner message, the split into candidates. -/

namespace Sys2Proof.Machine

/-! ## The outer checksum -/

/-- `outerChecksum(s) = 0xFF - (sum(s) mod 256)` (40_checksum.md R130). -/
def outerChecksum (s : Bytes) : Byte := BitVec.ofNat 8 (0xFF - byteSum s % 256)

/-! ## The inner CRC-16 -/

/-- One nibble iteration of the candidate update (40_checksum.md R140). UNVERIFIED (log entry 5). -/
def crcNibble (hi lo : Vector Byte 16) (crc : Half) (nib : BitVec 4) : Half :=
  let t := crc.extractLsb' 12 4 ^^^ nib
  (crc <<< 4) ^^^ (hi[t.toNat]'(t.isLt) ++ lo[t.toNat]'(t.isLt))

/-- `CrcUpdate(crc, b)` (40_checksum.md R139): the candidate of R140, high nibble first, or an unknown
function. -/
def crcUpdate (u : CrcUnit) (crc : Half) (b : Byte) : Half :=
  match u with
  | .nibbleTables hi lo =>
    crcNibble hi lo (crcNibble hi lo crc (b.extractLsb' 4 4)) (b.extractLsb' 0 4)
  | .unknown k => Config.unknownCrcUpdate k crc b

/-- The loop of `innerCrc16` over the bytes from index `i` on; indices 3 and 4 are not fed
(40_checksum.md R138). -/
def crcFrom (u : CrcUnit) (i : Nat) (crc : Half) : Bytes → Half
  | [] => crc
  | b :: rest => crcFrom u (i + 1) (if i = 3 ∨ i = 4 then crc else crcUpdate u crc b) rest

/-- `innerCrc16(m)` over the declared length `m[2]` (40_checksum.md R138). -/
def innerCrc16 (p : Params) (m : Bytes) : Half :=
  crcFrom p.crc 0 p.crcInit (m.take (byteAt m 2).toNat)

/-! ## Outer frames -/

/-- `Addressed(t, f, a, r, p)` (41_outer_frame.md R151). -/
def addressed (t f : Byte) (a : Bytes) (r : Byte) (p : Bytes) : Bytes :=
  let body := [t, f] ++ a ++ [r] ++ p
  let l := BitVec.ofNat 16 (p.length + uniOverhead)
  [start, hi8 l, lo8 l] ++ body ++ [outerChecksum body]

/-- `e(b)` (41_outer_frame.md R158). -/
def escapeByte (p : Params) (b : Byte) : Bytes :=
  if escSet.contains b then [p.escByte, b ^^^ p.escXor] else [b]

/-- `Escape(F)` (41_outer_frame.md R158): byte 0 is never escaped. Only the set of escaped bytes is the
source's; the rest is the spec's general knowledge. PRESUMED (log entry 4). -/
def escape (p : Params) : Bytes → Bytes
  | [] => []
  | b :: rest => b :: rest.flatMap (escapeByte p)

/-- `Locate(b)` (41_outer_frame.md R161): the index of the first start byte and the declared length. -/
def locate (b : Bytes) : Except Err (Nat × Nat) :=
  match b.findIdx? (fun x => x == start) with
  | none => .error .noStart
  | some s =>
    if b.length < s + 3 then .error .short
    else
      let l := msbFirst (byteAt b (s + 1)) (byteAt b (s + 2))
      if l < 2 then .error .short
      else if b.length < s + l + 4 then .error .short
      else .ok (s, l)

/-! ## Inner messages -/

/-- `InnerBuild(d, s, c, off, data)` (42_inner_bus.md R180): every field first, then the CRC, then the
CRC written back, low byte first. -/
def innerBuild (p : Params) (d s c : Byte) (off : Half) (data : Bytes) : Bytes × Half :=
  let m := [d, s, BitVec.ofNat 8 (innerHeader + data.length), 0x00, 0x00, c, lo8 off, hi8 off] ++ data
  let crc := innerCrc16 p m
  ((m.set 3 (lo8 crc)).set 4 (hi8 crc), crc)

/-! ## Candidate frames -/

/-- The scan of `Split` with the accumulator `acc` (43_demux.md R200). -/
def splitFrom (acc : Bytes) : Bytes → List Bytes
  | [] => if acc = [] then [] else [acc]
  | b :: rest =>
    if b = start then
      if acc = [] then splitFrom [start] rest else acc :: splitFrom [start] rest
    else splitFrom (acc ++ [b]) rest

/-- `Split(b)` (43_demux.md R200). -/
def split (b : Bytes) : List Bytes := splitFrom [] b

end Sys2Proof.Machine
end

