-- ==== Sys2Proof/Machine/Checksum.lean ====
section
/-! DEFINITION. The checksum and CRC commands (40_checksum.md). -/

namespace Sys2Proof.Machine

/-- OSUM (R131). -/
def execOsum (s : State) : Result :=
  withIn s fun b => .next (State.finish { s with rsum := outerChecksum b } false false)

/-- OVFY (R133): E_OCHK on a mismatch whatever CFG.STRICT is. -/
def execOvfy (s : State) : Result :=
  withIn s fun b =>
    match locate b with
    | .error e => .next (s.raise e)
    | .ok (p, l) =>
      let c := outerChecksum (slice b (p + 3) l)
      if c ≠ byteAt b (p + 3 + l) then .next (s.raise .ochk)
      else .next (State.finish
        { s with rsum := c, rlen := BitVec.ofNat 16 l, rpos := BitVec.ofNat 16 p } true false)

/-- ICRC (R142): a mismatch is a result, reported in CRCOK. -/
def execIcrc (s : State) : Result :=
  if s.ilen.toNat < 3 then .next (s.raise .short)
  else withIn s fun b =>
    let n := byteAt b 2
    if s.ilen.toNat < n.toNat then .next (s.raise .short)
    else
      let crc := innerCrc16 s.params b
      if 5 ≤ n.toNat then
        let stored := lsbFirst (byteAt b 3) (byteAt b 4)
        .next (State.finish { s with rcrc := crc, blen := n, dcrc := stored } false (stored == crc))
      else
        .next (State.finish { s with rcrc := crc, blen := n, dcrc := 0 } false false)

end Sys2Proof.Machine
end

