-- ==== Sys2Proof/Machine/Control.lean ====
section
/-! DEFINITION. The control commands (44_control.md) and the illegal opcode (30_encoding.md R114). -/

namespace Sys2Proof.Machine

/-- NOP (R215): STATUS is overwritten, nothing else. -/
def execNop (s : State) : Result := .next (s.finish false false)

/-- CLR (R216): the lengths go to 0 and FQ is emptied; no byte of a buffer is erased. -/
def execClr (s : State) : Result :=
  .next (State.finish { s with ilen := 0, olen := 0, fq := [], fcnt := 0 } false false)

/-- OTOI (R217): `MemWrite(IBUF, 0, OLEN, MemRead(OBUF, 0, OLEN))`, `ILEN <- OLEN`. -/
def execOtoi (s : State) : Result :=
  .next (State.finish
    { s with ibuf := s.ibuf.writeBytes 0 (outRead s 0 s.olen.toNat), ilen := s.olen } false false)

/-- SRST (R218, 70_reset_and_hazards.md R311): the reset state, but CMD keeps the value written. -/
def execSrst (s : State) : Result := .next (s.reinit s.cmd)

/-- A value of CMD that is no assigned opcode (30_encoding.md R114): E_ILL, nothing else changes. -/
def execIllegal (s : State) : Result := .next (s.raise .ill)

end Sys2Proof.Machine
end

