-- ==== Sys2Proof/Machine/Demux.lean ====
section
/-! DEFINITION. The stream demultiplexer (43_demux.md). -/

namespace Sys2Proof.Machine

/-- DEMUX (R201): FQ is replaced by the candidates of IN; FCNT is their number (log entry 14). -/
def execDemux (s : State) : Result :=
  withIn s fun b =>
    let q := split b
    .next (State.finish { s with fq := q, fcnt := BitVec.ofNat 16 q.length } false false)

/-- FPOP (R205): the first candidate moves to OUT. -/
def execFpop (s : State) : Result :=
  match s.fq with
  | [] => .next (s.raise .empty)
  | f :: q => .next (State.finish ({ s with fq := q, fcnt := s.fcnt - 1 }.setOut f) false false)

end Sys2Proof.Machine
end

