-- ==== Sys2Proof/Machine/InnerBus.lean ====
section
/-! DEFINITION. The inner bus codec (42_inner_bus.md). -/

namespace Sys2Proof.Machine

/-- Build an inner message from BDEST, BSRC, BOFF, a command byte and data, and leave it in OUT: the
common end of IENC, IENCR and IENCW (R181, R183, R185). -/
def sendInner (c : Byte) (data : Bytes) (s : State) : State :=
  let (m, crc) := innerBuild s.params s.bdest s.bsrc c s.boff data
  State.finish
    { s.setOut m with rcrc := crc, blen := BitVec.ofNat 8 (innerHeader + data.length) } false false

/-- IENC (R181): E_LEN above INNER_DATA_MAX, or when the 8-bit length field cannot hold the length (log
entry 11). -/
def execIenc (s : State) : Result :=
  if s.params.innerDataMax < s.ilen.toNat ∨ 255 < innerHeader + s.ilen.toNat then .next (s.raise .len)
  else withIn s fun b => .next (sendInner s.bcmd b s)

/-- IENCR (R183): command 'R' and the one data byte BREQ. -/
def execIencr (s : State) : Result := .next (sendInner cmdRead [s.breq] s)

/-- IENCW (R185): command 'W' and at most 12 data bytes. -/
def execIencw (s : State) : Result :=
  if page < s.ilen.toNat then .next (s.raise .arg)
  else withIn s fun b => .next (sendInner cmdWrite b s)

/-- IDEC (R188): E_SHORT below INNER_MIN, or below the fixed header (log entry 11); a wrong CRC fails only
under CFG.STRICT. -/
def execIdec (s : State) : Result :=
  if s.ilen.toNat < 3 then .next (s.raise .short)
  else withIn s fun b =>
    let n := byteAt b 2
    if n.toNat < s.params.innerMin ∨ n.toNat < innerHeader ∨ s.ilen.toNat < n.toNat then .next (s.raise .short)
    else
      let crc := innerCrc16 s.params b
      let stored := lsbFirst (byteAt b 3) (byteAt b 4)
      let ok := crc == stored
      if cfgStrict s && !ok then .next (s.raise .icrc)
      else .next (State.finish
        { s.setOut (slice b 8 (n.toNat - 8)) with
          ddest := byteAt b 0, dsrc := byteAt b 1, blen := n, dcrc := stored, rcrc := crc,
          dcmd := byteAt b 5, doff := lsbFirst (byteAt b 6) (byteAt b 7) } false ok)

end Sys2Proof.Machine
end

