-- ==== Sys2Proof/Machine/OuterFrame.lean ====
section
/-! DEFINITION. The outer frame codec (41_outer_frame.md). -/

namespace Sys2Proof.Machine

/-- The frame a builder returns: escaped when `CFG.ESC = 1` (R150, R153, R157). -/
def transmitForm (s : State) (f : Bytes) : Bytes := if cfgEsc s then escape s.params f else f

/-- ENCU's pseudocode (R150) for the address bytes `a`; ENCB's is the same with BCAST_ADDR (R155). -/
def sendAddressed (a : Bytes) (s : State) : Result :=
  let n := s.ilen.toNat
  let l := n + uniOverhead
  if 0xFFFF < l then .next (s.raise .len)
  else withIn s fun p =>
    let f := addressed s.txtype s.txfid a s.txrsvd p
    let c := byteAt f (n + 14)
    let f := transmitForm s f
    if s.params.bufCap < f.length then .next (s.raise .ovf)
    else .next (State.finish
      { s.setOut f with rlen := BitVec.ofNat 16 l, rsum := c } false false)

/-- ENCU (R150). -/
def execEncu (s : State) : Result := sendAddressed (addrBytes s.addr) s

/-- ENCD (R153): the literal frame; RSUM is not written. -/
def execEncd (s : State) : Result :=
  .next (State.finish { s.setOut (transmitForm s discFrame) with rlen := 4 } false false)

/-- ENCB (R155). -/
def execEncb (s : State) : Result := sendAddressed (addrBytes s.params.bcastAddr) s

/-- ESCF (R159): escapes whatever CFG.ESC is. -/
def execEscf (s : State) : Result :=
  withIn s fun b =>
    let f := escape s.params b
    if s.params.bufCap < f.length then .next (s.raise .ovf)
    else .next ((s.setOut f).finish false false)

/-- DECF (R162): the whole frame goes to OUT; a wrong checksum fails only under CFG.STRICT. -/
def execDecf (s : State) : Result :=
  withIn s fun b =>
    match locate b with
    | .error e => .next (s.raise e)
    | .ok (p, l) =>
      let c := outerChecksum (slice b (p + 3) l)
      let ok := c == byteAt b (p + 3 + l)
      if cfgStrict s && !ok then .next (s.raise .ochk)
      else .next (State.finish
        { s.setOut (slice b p (l + 4)) with
          rlen := BitVec.ofNat 16 l, rtype := byteAt b (p + 3), rfid := byteAt b (p + 4),
          rsum := c, rpos := BitVec.ofNat 16 p } ok false)

end Sys2Proof.Machine
end

