-- ==== Sys2Proof/Machine/Dispatch.lean ====
section
/-! DEFINITION. The meaning of each command: one arm per row of 30_encoding.md R112. -/

namespace Sys2Proof.Machine

/-- What a command does to a state whose CMD already holds its opcode (10_state.md R22). -/
def exec (i : Instr) (s : State) : Host.Outcome State Fault Refusal :=
  match i with
  | .nop => Sys2Proof.Machine.execNop s
  | .clr => Sys2Proof.Machine.execClr s
  | .otoi => Sys2Proof.Machine.execOtoi s
  | .srst => Sys2Proof.Machine.execSrst s
  | .osum => Sys2Proof.Machine.execOsum s
  | .ovfy => Sys2Proof.Machine.execOvfy s
  | .icrc => Sys2Proof.Machine.execIcrc s
  | .encu => Sys2Proof.Machine.execEncu s
  | .encd => Sys2Proof.Machine.execEncd s
  | .encb => Sys2Proof.Machine.execEncb s
  | .escf => Sys2Proof.Machine.execEscf s
  | .decf => Sys2Proof.Machine.execDecf s
  | .ienc => Sys2Proof.Machine.execIenc s
  | .iencr => Sys2Proof.Machine.execIencr s
  | .iencw => Sys2Proof.Machine.execIencw s
  | .idec => Sys2Proof.Machine.execIdec s
  | .demux => Sys2Proof.Machine.execDemux s
  | .fpop => Sys2Proof.Machine.execFpop s

end Sys2Proof.Machine
end

