-- ==== Sys2Proof/Machine/HostPort.lean ====
section
/-! DEFINITION. The host's side of the machine: register accesses by number, buffer accesses, commands,
and the reset input (10_state.md R21 to R38, 20_memory.md R60 to R75, 70_reset_and_hazards.md R310). -/

namespace Sys2Proof.Machine

/-- `x[r]`: a register read whole, at its own width (10_state.md R21); it has no side effect (R34). -/
def readReg (s : State) : Reg → DWord
  | .cmd => s.cmd.setWidth 64 | .status => s.status.setWidth 64 | .errlog => s.errlog.setWidth 64
  | .cfg => s.cfg.setWidth 64 | .txtype => s.txtype.setWidth 64 | .txfid => s.txfid.setWidth 64
  | .txrsvd => s.txrsvd.setWidth 64 | .addr => s.addr | .bdest => s.bdest.setWidth 64
  | .bsrc => s.bsrc.setWidth 64 | .bcmd => s.bcmd.setWidth 64 | .boff => s.boff.setWidth 64
  | .breq => s.breq.setWidth 64 | .ilen => s.ilen.setWidth 64 | .olen => s.olen.setWidth 64
  | .rlen => s.rlen.setWidth 64 | .rtype => s.rtype.setWidth 64 | .rfid => s.rfid.setWidth 64
  | .rsum => s.rsum.setWidth 64 | .rpos => s.rpos.setWidth 64 | .rcrc => s.rcrc.setWidth 64
  | .blen => s.blen.setWidth 64 | .ddest => s.ddest.setWidth 64 | .dsrc => s.dsrc.setWidth 64
  | .dcmd => s.dcmd.setWidth 64 | .doff => s.doff.setWidth 64 | .dcrc => s.dcrc.setWidth 64
  | .fcnt => s.fcnt.setWidth 64

/-- A host write to ILEN (10_state.md R29): a value above BUF_CAP is not stored and sets ILENBAD. -/
def writeIlen (s : State) (v : Half) : State :=
  if s.params.bufCap < v.toNat then { s with errlog := s.errlog ||| ilenBad } else { s with ilen := v }

/-- `x[r] <- v` by the host, as far as it only stores (10_state.md R21 to R34): CMD stores (its command
is `runCommand`'s), ERRLOG clears the bits written as 1, CFG keeps bits 1:0, a read-only register
ignores the write. -/
def storeReg (s : State) (r : Reg) (v : DWord) : State :=
  match r with
  | .cmd => { s with cmd := v.setWidth 8 }
  | .errlog => { s with errlog := s.errlog &&& ~~~(v.setWidth 16) }
  | .cfg => { s with cfg := v.setWidth 8 &&& 0x03 }
  | .txtype => { s with txtype := v.setWidth 8 }
  | .txfid => { s with txfid := v.setWidth 8 }
  | .txrsvd => { s with txrsvd := v.setWidth 8 }
  | .addr => { s with addr := v }
  | .bdest => { s with bdest := v.setWidth 8 }
  | .bsrc => { s with bsrc := v.setWidth 8 }
  | .bcmd => { s with bcmd := v.setWidth 8 }
  | .boff => { s with boff := v.setWidth 16 }
  | .breq => { s with breq := v.setWidth 8 }
  | .ilen => writeIlen s (v.setWidth 16)
  | .status | .olen | .rlen | .rtype | .rfid | .rsum | .rpos | .rcrc | .blen | .ddest | .dsrc | .dcmd
  | .doff | .dcrc | .fcnt => s

/-- The command CMD holds, to its end: the assigned opcode's meaning, or the illegal opcode's
(10_state.md R22, 30_encoding.md R112, R114). -/
def runCommand (s : State) : Result :=
  match decode s.cmd with
  | .ok i => exec i s
  | .error _ => execIllegal s

/-- A host write to a register: to CMD it stores and then executes, to any other register it only
stores (10_state.md R22). -/
def hostWriteReg (r : Reg) (v : DWord) (s : State) : Result :=
  if r = .cmd then runCommand (storeReg s r v) else .next (storeReg s r v)

/-- The refusal for a host access the spec does not offer (93_implementation_defined.md U9). -/
def AccessProblem.refusal : AccessProblem → Refusal
  | .noSuchRegister n => .noSuchRegister n
  | .valueTooWide n => .valueTooWide n
  | .outsideBuffer sp a n => .outsideBuffer sp a n

/-- A host write to a register by number. -/
def performWriteReg (num : Nat) (v : DWord) (s : State) : Result :=
  match Reg.ofNumber num with
  | some r => hostWriteReg r v s
  | none => .refused (.noSuchRegister num)

/-- A host read of a register by number: only the answer changes (20_memory.md R67). -/
def performReadReg (num : Nat) (s : State) : Result :=
  match Reg.ofNumber num with
  | some r => .next { s with answer := some (.reg num (readReg s r)) }
  | none => .refused (.noSuchRegister num)

/-- `MemWrite` by the host: to IBUF it stores, to OBUF it is ignored (10_state.md R35, R36). -/
def performWriteBuf (sp : Space) (addr : Nat) (bs : Bytes) (s : State) : Result :=
  match sp with
  | .ibuf => .next { s with ibuf := s.ibuf.writeBytes addr bs }
  | .obuf => .next s

/-- `MemRead` by the host: only the answer changes (20_memory.md R67), and for OBUF the counter its free
bytes are drawn with (log entry 8). -/
def performReadBuf (sp : Space) (addr n : Nat) (s : State) : Result :=
  match sp with
  | .ibuf => .next { s with answer := some (.bytes .ibuf addr (inRead s addr n)) }
  | .obuf => .next { s with answer := some (.bytes .obuf addr (outRead s addr n)), fresh := s.fresh + n }

/-- What one event does: refused where the spec offers no such access, else its effect. -/
def perform (e : Event) (s : State) : Result :=
  match e.problem s.params.bufCap with
  | some pr => .refused pr.refusal
  | none =>
    match e with
    | .writeReg num v => performWriteReg num v s
    | .readReg num => performReadReg num s
    | .writeBuf sp a bs => performWriteBuf sp a bs s
    | .readBuf sp a n => performReadBuf sp a n s
    | .hardReset => .next (s.reinit 0x00)

/-- A write of `w` to CMD: how the host issues a command (30_encoding.md R110, R120). -/
def cmdWriteEvent (w : Nat) : Event := .writeReg 0 (BitVec.ofNat 64 w)

/-- The next event, in the order the host issued them (20_memory.md R71); with none to come the PTFC
stays idle (70_reset_and_hazards.md R312). -/
def advance (s : State) : Result :=
  match s.pending with
  | [] => .next s
  | e :: rest => perform e { s with pending := rest }

end Sys2Proof.Machine
end

