-- ==== Sys2Proof/Machine/Step.lean ====
section
/-! DEFINITION. One step: the next event from outside takes its whole effect (20_memory.md R70, R71,
R74). The machine fetches nothing (10_state.md R40): a command comes with a write to CMD. -/

namespace Sys2Proof.Machine

/-- One step of the machine (log entry 1). -/
def step (s : State) : Host.Outcome State Fault Refusal := advance s

/-- `s` with a host write of the opcode `w` to CMD as the very next event (log entry 1). A command is one
byte (30_encoding.md R110), so `nbits`, which is 8 in every row of the table, plays no part. -/
def State.withFetchWord (s : State) (_nbits w : Nat) : State :=
  { s with pending := cmdWriteEvent w :: s.pending }

end Sys2Proof.Machine
end

