-- ==== Sys2Proof/Machine/Notation.lean ====
section
/-! DEFINITION. The host notation of 30_encoding.md R120 and the pseudo-instructions of R121, as the
events they stand for. -/

namespace Sys2Proof.Machine

/-- One line of the notation (30_encoding.md R120). -/
inductive Line where
  | set (r : Reg) (v : DWord)
  | clrerr (mask : Half)
  | store (addr : Nat) (bytes : Bytes)
  | mnemonic (i : Instr)
  | raw (v : Byte)
  | read (r : Reg)
  | load (addr n : Nat)
  deriving DecidableEq, Repr

/-- The host access a line stands for (30_encoding.md R120). -/
def Line.event : Line → Event
  | .set r v => .writeReg r.number v
  | .clrerr mask => .writeReg Reg.errlog.number (mask.setWidth 64)
  | .store a bs => .writeBuf .ibuf a bs
  | .mnemonic i => cmdWriteEvent (encode i).toNat
  | .raw v => cmdWriteEvent v.toNat
  | .read r => .readReg r.number
  | .load a n => .readBuf .obuf a n

/-- The value a command line writes to CMD: the lines `MNEMONIC` and `RAW value`. DESIGN CHOICE (log entry
15): R120 does not say whether `SET CMD, value`, which executes too, is a command line; here it is none, and
it adds nothing to a program's encoding. -/
def Line.cmdValue : Line → Option Byte
  | .mnemonic i => some (encode i)
  | .raw v => some v
  | .set _ _ | .clrerr _ | .store _ _ | .read _ | .load _ _ => none

/-- The encoding of a program: the values its command lines write to CMD, in order (30_encoding.md R120). -/
def programCodes (ls : List Line) : Bytes := ls.filterMap Line.cmdValue

/-- `PUT bytes` (30_encoding.md R121). -/
def putLines (bs : Bytes) : List Line := [.store 0 bs, .set .ilen (BitVec.ofNat 64 bs.length)]

/-- `TAKE`, for the OLEN that its first line reads (30_encoding.md R121). -/
def takeLines (olen : Nat) : List Line := [.read .olen, .load 0 olen]

/-- `UNICAST addr, bytes` before its TAKE (30_encoding.md R121). -/
def unicastBuild (a : DWord) (bs : Bytes) : List Line := [.set .addr a] ++ putLines bs ++ [.mnemonic .encu]

/-- `UNICAST addr, bytes` (30_encoding.md R121), for the OLEN that TAKE reads. -/
def unicastLines (a : DWord) (bs : Bytes) (olen : Nat) : List Line := unicastBuild a bs ++ takeLines olen

/-- `RELAYR off` before its TAKE (30_encoding.md R121). -/
def relayrBuild (off : Half) : List Line :=
  [.set .boff (off.setWidth 64), .mnemonic .iencr, .mnemonic .otoi, .mnemonic .encb]

/-- `RELAYR off` (30_encoding.md R121), for the OLEN that TAKE reads. -/
def relayrLines (off : Half) (olen : Nat) : List Line := relayrBuild off ++ takeLines olen

/-- `RELAYW off, bytes` before its TAKE (30_encoding.md R121). -/
def relaywBuild (off : Half) (bs : Bytes) : List Line :=
  [.set .boff (off.setWidth 64)] ++ putLines bs ++ [.mnemonic .iencw, .mnemonic .otoi, .mnemonic .encb]

/-- `RELAYW off, bytes` (30_encoding.md R121), for the OLEN that TAKE reads. -/
def relaywLines (off : Half) (bs : Bytes) (olen : Nat) : List Line := relaywBuild off bs ++ takeLines olen

/-- `SPLIT bytes` (30_encoding.md R121). -/
def splitLines (bs : Bytes) : List Line := putLines bs ++ [.mnemonic .demux, .read .fcnt]

/-- `NEXT` (30_encoding.md R121), for the OLEN that TAKE reads. -/
def nextLines (olen : Nat) : List Line := [.mnemonic .fpop, .read .status] ++ takeLines olen

/-- `EXTRACT bytes` (30_encoding.md R121), for the OLEN that TAKE reads. -/
def extractLines (bs : Bytes) (olen : Nat) : List Line :=
  putLines bs ++ [.mnemonic .decf, .read .status] ++ takeLines olen

end Sys2Proof.Machine
end

