-- ==== Sys2Proof/Machine/HostContract.lean ====
section
/-! DEFINITION. The host software contract of 45_host_sessions.md, which is no PTFC hardware (00_scope.md
R5): the computations the host makes on the PTFC's outputs and the session objects, as functions. No step of
the machine calls them. Machine/HostSessions.lean runs them on a PTFC and a transport. -/

namespace Sys2Proof.Machine

/-- ABANDON_POLICY (45_host_sessions.md R258). -/
inductive AbandonPolicy where
  | abort
  | skip
  deriving DecidableEq, Repr

/-- SHORT_FILL (45_host_sessions.md R262); the pad byte is not in the source. -/
inductive ShortFill where
  | truncate
  | pad (b : Byte)
  deriving DecidableEq, Repr

/-- The host-side parameters of 00_scope.md R8 and 93_implementation_defined.md U16: open, so arguments, all
but ABANDON_POLICY, whose default is abort (D24). -/
structure HostParams where
  statusType : Byte
  queryPayloadLen : Nat
  queryRespOff : Nat
  queryEscalateN : Nat
  readMaxPages : Nat
  extractedMin : Nat     -- the least length of an extracted frame a read accepts (R249)
  writeRetryMax : Nat
  abandon : AbandonPolicy := .abort
  shortFill : ShortFill
  maxBytes : Nat         -- what the host asks of one transport read (R230)
  settleDelay : Nat      -- SETTLE_DELAY, QUERY_DELAY, READ_TIMEOUT: durations, the unit not in the source (R231)
  queryDelay : Nat
  readTimeout : Nat
  deriving DecidableEq, Repr

/-- MIN_CAND (00_scope.md R7). -/
def minCand : Nat := 20

/-- SLOT (00_scope.md R7). -/
def slotSize : Nat := 128

/-! ## Discovery -/

/-- The frame-type byte of a candidate, at TYPE_OFF (45_host_sessions.md R233); asked of candidates longer than
MIN_CAND only. -/
def candidateType (c : Bytes) : Byte := byteAt c 3

/-- Discovery keeps this candidate (45_host_sessions.md R233). -/
def discoveryKeeps (h : HostParams) (c : Bytes) : Bool :=
  decide (minCand < c.length) && candidateType c != h.statusType

/-- `address = c[10 .. 18)` (45_host_sessions.md R235). -/
def discoveryAddress (c : Bytes) : Bytes := slice c 10 8

/-- `nodeId = c[19 .. n-2)` (45_host_sessions.md R235, R236). -/
def discoveryId (c : Bytes) : Bytes := slice c 19 (c.length - 21)

/-- One candidate's record; a frame that fails the filter or has an empty id is dropped (R237). -/
def discoveryRecord (h : HostParams) (c : Bytes) : Option (Bytes × Bytes) :=
  if discoveryKeeps h c && !(discoveryId c).isEmpty then some (discoveryAddress c, discoveryId c) else none

/-- The mapping from Address to node id; the last write wins on a duplicate address (R237). -/
def discoveryMap (h : HostParams) (cands : List Bytes) : List (Bytes × Bytes) :=
  (cands.filterMap (discoveryRecord h)).foldl
    (fun m r => m.filter (fun x => x.1 != r.1) ++ [r]) []

/-- One hexadecimal digit, upper case (45_host_sessions.md R238). -/
def hexDigit (n : BitVec 4) : Char :=
  (['0', '1', '2', '3', '4', '5', '6', '7', '8', '9', 'A', 'B', 'C', 'D', 'E', 'F']).getD n.toNat '0'

/-- A byte sequence read as ASCII characters (45_host_sessions.md R235). A byte above 0x7F is no ASCII
character; it is read as the character of that number, DESIGN CHOICE (log entry 13). -/
def asciiText (bs : Bytes) : List Char := bs.map (fun b => Char.ofNat b.toNat)

/-- An Address as text: two digits a byte, wire order, no separators (45_host_sessions.md R238). -/
def addressText (a : Bytes) : List Char :=
  a.flatMap (fun b => [hexDigit (b.extractLsb' 4 4), hexDigit (b.extractLsb' 0 4)])

/-- The mapping as the discovery call returns it: Address text to node id (45_host_sessions.md R235, R238,
R239). -/
def discoveryText (m : List (Bytes × Bytes)) : List (List Char × List Char) :=
  m.map (fun r => (addressText r.1, asciiText r.2))

/-! ## Query -/

/-- The query payload: the command and zero filler up to QUERY_PAYLOAD_LEN (45_host_sessions.md R240); for a length
of 0 the command alone, DESIGN CHOICE (log entry 13). -/
def queryPayload (h : HostParams) (command : Byte) : Bytes :=
  command :: List.replicate (h.queryPayloadLen - 1) 0

/-- The candidate is the expected response (45_host_sessions.md R233, R240). QUERY_RESP_OFF is open: a
candidate too short to have a byte there is no match, DESIGN CHOICE (log entry 13). -/
def queryMatches (h : HostParams) (code : Byte) (cand : Bytes) : Bool :=
  decide (minCand < cand.length) && candidateType cand == h.statusType && cand[h.queryRespOff]? == some code

/-- The first expected response, or none (45_host_sessions.md R240). -/
def queryResult (h : HostParams) (code : Byte) (cands : List Bytes) : Option Bytes :=
  cands.find? (queryMatches h code)

/-- The state of the caller of the Query Session (45_host_sessions.md R241): the target it asks, how often in
a row that target gave no result, and the targets it treats as another device class. -/
structure QueryCaller where
  target : DWord
  empties : Nat
  escalated : List DWord
  deriving DecidableEq, Repr

/-- One query of a target gave this result (45_host_sessions.md R241): a result, or another target, starts the
count again; at QUERY_ESCALATE_N empty results in a row the target becomes one of another device class (log
entry 13). -/
def queryCounted (h : HostParams) (target : DWord) (result : Option Bytes) (c : QueryCaller) : QueryCaller :=
  let before := if target = c.target then c.empties else 0
  let empties := if result.isSome then 0 else before + 1
  { target, empties,
    escalated :=
      if h.queryEscalateN ≤ empties ∧ result = none ∧ target ∉ c.escalated then c.escalated ++ [target]
      else c.escalated }

/-! ## Slot transfer -/

/-- Slot `n` begins at offset `128*n` (20_memory.md R62, 45_host_sessions.md R246). The spec gives no number of
slots: for a slot above 511, whose offset does not fit 16 bits, the offset is taken modulo 65536, DESIGN
CHOICE (log entry 13). -/
def slotBase (n : Nat) : Half := BitVec.ofNat 16 (slotSize * n)

/-- The offset of the next page (45_host_sessions.md R250, R257); past 65535 it goes on at 0, DESIGN CHOICE
(log entry 13). -/
def nextPage (off : Half) (pageSize : Byte) : Half := off + pageSize.setWidth 16

/-- The data portion `e[16 .. |e|-1)` of an extracted frame (45_host_sessions.md R250). -/
def pageData (e : Bytes) : Bytes := slice e 16 (e.length - 17)

/-- The bytes of an extracted frame `f` that the host gives to IDEC, for the offset `q` at which it knows
the inner message to start; the checksum is left out (42_inner_bus.md R190, U12). -/
def innerPart (f : Bytes) (q : Nat) : Bytes := slice f q (f.length - 1 - q)

/-! ### Reading a slot -/

/-- The states of the read path (45_host_sessions.md R248). -/
inductive ReadPhase where
  | idle
  | requesting
  | awaitingResponse
  | accumulating
  | done
  deriving DecidableEq, Repr

/-- The session object of a slot read (45_host_sessions.md R245, R248): the TransferSession, the extracted
frame of the last accepted page, the SlotRecord so far, the number of its pages. -/
structure ReadSession where
  phase : ReadPhase
  baseOffset : Half
  pageSize : Byte
  bytesTransferred : BitVec 32
  retries : BitVec 32
  last : Option Bytes
  record : Bytes
  pages : Nat
  deriving DecidableEq, Repr

/-- A read session of a slot, before its first request (45_host_sessions.md R245, R246). -/
def readStart (slot : Nat) : ReadSession :=
  { phase := .idle, baseOffset := slotBase slot, pageSize := 12, bytesTransferred := 0, retries := 0,
    last := none, record := [], pages := 0 }

/-- Step 1 (45_host_sessions.md R248): the request for the page at the offset is sent, or sent again; with
READ_MAX_PAGES pages the session is `Done` instead (step 4; log entry 13). -/
def readRequest (h : HostParams) (s : ReadSession) : ReadSession :=
  match s.phase with
  | .idle | .requesting | .awaitingResponse =>
    if h.readMaxPages ≤ s.pages then { s with phase := .done } else { s with phase := .awaitingResponse }
  | .accumulating | .done => s

/-- The acceptance test of 45_host_sessions.md R249. -/
def readAccepts (h : HostParams) (s : ReadSession) (e : Bytes) : Bool :=
  decide (h.extractedMin ≤ e.length) && s.last != some e

/-- Step 2 (45_host_sessions.md R248, R249): what was extracted, or none, is accepted or discarded; discarded,
the state stays and the offset does not advance. The u32 `retries` (00_scope.md R15) wraps modulo 2^32, DESIGN
CHOICE (log entry 13). -/
def readReceive (h : HostParams) (s : ReadSession) (response : Option Bytes) : ReadSession :=
  match s.phase with
  | .awaitingResponse =>
    match response with
    | none => { s with retries := s.retries + 1 }
    | some e =>
      if readAccepts h s e then { s with phase := .accumulating, last := some e }
      else { s with retries := s.retries + 1 }
  | .idle | .requesting | .accumulating | .done => s

/-- Steps 3 and 4 (45_host_sessions.md R248, R250): the accepted page's data is appended, the offset goes on by
the page size, and the session is `Requesting` again, or `Done` at READ_MAX_PAGES pages. The u32
`bytesTransferred` (00_scope.md R15) wraps modulo 2^32, DESIGN CHOICE (log entry 13). -/
def readAccumulate (h : HostParams) (s : ReadSession) : ReadSession :=
  match s.phase, s.last with
  | .accumulating, some e =>
    { s with
      phase := if h.readMaxPages ≤ s.pages + 1 then .done else .requesting,
      record := s.record ++ pageData e, pages := s.pages + 1,
      baseOffset := nextPage s.baseOffset s.pageSize,
      bytesTransferred := s.bytesTransferred + BitVec.ofNat 32 (pageData e).length }
  | _, _ => s

/-- One request and what came of it (45_host_sessions.md R248, steps 1 to 4). -/
def readStep (h : HostParams) (s : ReadSession) (response : Option Bytes) : ReadSession :=
  readAccumulate h (readReceive h (readRequest h s) response)

/-! ### Writing a slot -/

/-- The states of the write path (45_host_sessions.md R255), and one more for the end that R259 gives without
a name. -/
inductive WritePhase where
  | idle
  | writing
  | verifying
  | matched
  | retrying
  | advancing
  | abandoned
  | terminated
  deriving DecidableEq, Repr

/-- What the slot-write call reports of a page (45_host_sessions.md R232, R258): success, or failure with the
final mismatch record. R258 says neither what the page index nor what the record is. DESIGN CHOICE (log entry
13): the pages of a call are counted from 0, and the record is the frame extracted from the last readback, or
none, without the chunk that was written. -/
inductive PageReport where
  | written (page : Nat)
  | failed (page : Nat) (readback : Option Bytes)
  deriving DecidableEq, Repr

/-- The session object of a slot write (45_host_sessions.md R245, R255): the TransferSession, the source data
not yet consumed, the index of the page, the reports so far. -/
structure WriteSession where
  phase : WritePhase
  baseOffset : Half
  pageSize : Byte
  bytesTransferred : BitVec 32
  retries : BitVec 32
  remaining : Bytes
  pageIndex : Nat
  reports : List PageReport
  deriving DecidableEq, Repr

/-- A write session of a slot, before its first request. -/
def writeStart (slot : Nat) (data : Bytes) : WriteSession :=
  { phase := .idle, baseOffset := slotBase slot, pageSize := 12, bytesTransferred := 0, retries := 0,
    remaining := data, pageIndex := 0, reports := [] }

/-- The data bytes of the current write request (45_host_sessions.md R255, R262). -/
def writeChunk (h : HostParams) (s : WriteSession) : Bytes :=
  let c := s.remaining.take s.pageSize.toNat
  match h.shortFill with
  | .truncate => c
  | .pad b => c ++ List.replicate (s.pageSize.toNat - c.length) b

/-- Step 1 (45_host_sessions.md R255): the write request of the chunk is sent, for the first time or again; with
no source data left the session ends instead (R259). -/
def writeRequest (s : WriteSession) : WriteSession :=
  match s.phase with
  | .idle | .advancing | .retrying =>
    if s.remaining = [] then { s with phase := .terminated } else { s with phase := .writing }
  | .writing | .verifying | .matched | .abandoned | .terminated => s

/-- Step 2 (45_host_sessions.md R256): the readback of the same offset is requested. -/
def writeReadback (s : WriteSession) : WriteSession :=
  match s.phase with
  | .writing => { s with phase := .verifying }
  | .idle | .verifying | .matched | .retrying | .advancing | .abandoned | .terminated => s

/-- Steps 3 and 4 (45_host_sessions.md R257, R258): the readback's data equals the chunk, or the pair is tried
again, or WRITE_RETRY_MAX is exhausted and the page is abandoned with its report. DESIGN CHOICE (log entry 13):
the u32 `retries` (00_scope.md R15) wraps modulo 2^32, so a WRITE_RETRY_MAX of 2^32 or more is never exhausted. -/
def writeVerify (h : HostParams) (s : WriteSession) (readback : Option Bytes) : WriteSession :=
  match s.phase with
  | .verifying =>
    if readback.map pageData = some (writeChunk h s) then { s with phase := .matched }
    else if s.retries.toNat < h.writeRetryMax then { s with phase := .retrying, retries := s.retries + 1 }
    else { s with phase := .abandoned, reports := s.reports ++ [.failed s.pageIndex readback] }
  | .idle | .writing | .matched | .retrying | .advancing | .abandoned | .terminated => s

/-- The next page: the offset and the source data go on, the retries start again, and the session ends with
the last of the data (45_host_sessions.md R257, R259). -/
def writeAdvance (s : WriteSession) : WriteSession :=
  let rest := s.remaining.drop s.pageSize.toNat
  { s with
    phase := if rest = [] then .terminated else .advancing,
    baseOffset := nextPage s.baseOffset s.pageSize, remaining := rest, pageIndex := s.pageIndex + 1,
    retries := 0 }

/-- After the verification: a matched page is reported and the session advances (45_host_sessions.md R257); an
abandoned one ends the session under `abort` and is passed over under `skip` (R258; log entry 13). The u32
`bytesTransferred` (00_scope.md R15) wraps modulo 2^32, DESIGN CHOICE (log entry 13). -/
def writeNext (h : HostParams) (s : WriteSession) : WriteSession :=
  match s.phase with
  | .matched =>
    writeAdvance { s with
      bytesTransferred := s.bytesTransferred + BitVec.ofNat 32 (s.remaining.take s.pageSize.toNat).length,
      reports := s.reports ++ [.written s.pageIndex] }
  | .abandoned =>
    match h.abandon with
    | .abort => s
    | .skip => writeAdvance s
  | .idle | .writing | .verifying | .retrying | .advancing | .terminated => s

/-- One write and readback pair and what came of it (45_host_sessions.md R255 to R259). A session that has ended
stays as it is. -/
def writeStep (h : HostParams) (s : WriteSession) (readback : Option Bytes) : WriteSession :=
  writeNext h (writeVerify h (writeReadback (writeRequest s)) readback)

/-! ## The accesses of the sessions -/

/-- The accesses of a read request at the session's offset (45_host_sessions.md R248 step 1), for the
OLEN that TAKE reads. -/
def readRequestLines (s : ReadSession) (olen : Nat) : List Line := relayrLines s.baseOffset olen

/-- The accesses of a write request (45_host_sessions.md R255), for the OLEN that TAKE reads. -/
def writeRequestLines (h : HostParams) (s : WriteSession) (olen : Nat) : List Line :=
  relaywLines s.baseOffset (writeChunk h s) olen

/-- The accesses of a write's readback request, at the same offset (45_host_sessions.md R256), for the OLEN
that TAKE reads. -/
def readbackLines (s : WriteSession) (olen : Nat) : List Line := relayrLines s.baseOffset olen

/-- The accesses of a discovery request (45_host_sessions.md R234), for the OLEN that TAKE reads. -/
def discoveryRequestLines (olen : Nat) : List Line := .mnemonic .encd :: takeLines olen

/-- The accesses of a query to the Address `a` (45_host_sessions.md R240), for the OLEN that TAKE reads. -/
def queryRequestLines (h : HostParams) (a : DWord) (command : Byte) (olen : Nat) : List Line :=
  unicastLines a (queryPayload h command) olen

/-- The next candidate of what a transport read returned, extracted (41_outer_frame.md R165, 43_demux.md
R208, 45_host_sessions.md R247, R256), for the OLEN that TAKE reads. -/
def extractNextLines (olen : Nat) : List Line :=
  [.mnemonic .fpop, .read .status, .mnemonic .otoi, .mnemonic .decf, .read .status] ++ takeLines olen

end Sys2Proof.Machine
end

