-- ==== Sys2Proof/Safety.lean ====
section
/-! DEFINITION. The terms the statements use: what a buffer holds, what a write changes, the invariant of
every step, and the wire formats written out once more from the spec's tables, apart from the functions
the commands call. -/

namespace Sys2Proof.Machine

/-! ## Buffers -/

/-- The buffer holds `bs` from address 0 on. -/
def Mem.Holds (m : Mem) (bs : Bytes) : Prop := ∀ a, a < bs.length → m.read a = bs[a]?

/-- `m'` is `m` with `bs` stored from address `addr` on, every other byte as before. -/
def Mem.Stored (m : Mem) (addr : Nat) (bs : Bytes) (m' : Mem) : Prop :=
  ∀ a, m'.read a = if addr ≤ a ∧ a < addr + bs.length then bs[a - addr]? else m.read a

/-- IN is `b`: `IBUF[0..ILEN)` holds exactly these bytes (00_scope.md R12). -/
def State.InIs (s : State) (b : Bytes) : Prop := b.length = s.ilen.toNat ∧ s.ibuf.Holds b

/-- OUT is `f`: `OBUF[0..OLEN)` holds exactly these bytes (00_scope.md R16). -/
def State.OutIs (s : State) (f : Bytes) : Prop := f.length = s.olen.toNat ∧ s.obuf.Holds f

/-- Some byte of IN has never been written since reset (10_state.md R38). -/
def State.InUnwritten (s : State) : Prop := ∃ a, a < s.ilen.toNat ∧ s.ibuf.read a = none

/-! ## The invariant -/

/-- What the spec promises of every reachable state (10_state.md R23 to R25, R29, R30, R33, R36, R37). -/
structure State.Inv (s : State) : Prop where
  /-- BUF_CAP is legal (00_scope.md R8). -/
  cap : 540 ≤ s.params.bufCap ∧ s.params.bufCap ≤ 4096
  /-- IBUF is in canonical form and inside BUF_CAP (R35). -/
  ibuf : s.ibuf.wf ∧ ∀ c ∈ s.ibuf, c.1 < s.params.bufCap
  /-- OBUF is in canonical form and inside BUF_CAP (R36). -/
  obuf : s.obuf.wf ∧ ∀ c ∈ s.obuf, c.1 < s.params.bufCap
  /-- ILEN is legal (R29). -/
  ilen : s.ilen.toNat ≤ s.params.bufCap
  /-- OLEN is legal, and every byte of OUT is held (R30, R38). -/
  olen : s.olen.toNat ≤ s.params.bufCap ∧ ∀ a, a < s.olen.toNat → (s.obuf.read a).isSome
  /-- FCNT is the number of candidates (R33). -/
  fcnt : s.fcnt.toNat = s.fq.length
  /-- Every candidate is non-empty, and all together fit in BUF_CAP bytes (R37). -/
  fq : (∀ f ∈ s.fq, f ≠ []) ∧ s.fq.flatten.length ≤ s.params.bufCap
  /-- STATUS: ERR at most 9, bit 7 reads 0, FQNE is `FCNT > 0` (R23, R33, 93 U10). -/
  status : (statusErr s.status).toNat ≤ 9 ∧ s.status.getLsbD 7 = false ∧
    statusFqne s.status = decide (0 < s.fcnt.toNat)
  /-- ERRLOG: bits 0 and 11 to 15 read 0 (R24). -/
  errlog : s.errlog &&& 0xF801 = 0
  /-- CFG: bits 7:2 read 0 (R25). -/
  cfg : s.cfg &&& 0xFC = 0

/-! ## The spec's tables, written out -/

/-- STATUS from its fields (10_state.md R23): ERR in bits 3:0, CKOK 0x10, CRCOK 0x20, FQNE 0x40. -/
def specStatus (err : Nat) (ckok crcok fqne : Bool) : Byte :=
  BitVec.ofNat 8 (err + (if ckok then 0x10 else 0) + (if crcok then 0x20 else 0) + (if fqne then 0x40 else 0))

/-- STATUS of a command that ends with `err`, `FQNE = (FCNT > 0)` for the given FCNT. -/
def specEnd (err : Nat) (ckok crcok : Bool) (fcnt : Half) : Byte :=
  specStatus err ckok crcok (decide (fcnt ≠ 0))

/-- The state after `raise` of the error with code `n` (60_exceptions.md R281). -/
def State.failed (s : State) (n : Nat) : State :=
  { s with status := specEnd n false false s.fcnt, errlog := s.errlog ||| BitVec.ofNat 16 (2 ^ n) }

/-- `0xFF - (sum(s) mod 256)` (40_checksum.md R130). -/
def specSum (s : Bytes) : Byte := BitVec.ofNat 8 (255 - (s.map (fun b => b.toNat)).sum % 256)

/-- The 8 address bytes, most significant first (20_memory.md R63, 30_encoding.md R111). -/
def specAddr (a : DWord) : Bytes := (List.range 8).map (fun i => (a >>> (56 - 8 * i)).setWidth 8)

/-- The addressed shape (30_encoding.md R93): start, length most significant byte first, type, frame id,
address, reserved byte, payload, checksum over the body. -/
def specFrame (ty fid : Byte) (a : Bytes) (rsvd : Byte) (p : Bytes) : Bytes :=
  [0x7E, BitVec.ofNat 8 ((p.length + 11) / 256), BitVec.ofNat 8 (p.length + 11), ty, fid] ++ a ++ [rsvd] ++ p
    ++ [specSum ([ty, fid] ++ a ++ [rsvd] ++ p)]

/-- The escaped form of a frame (30_encoding.md R104). -/
def specEscape (p : Params) (f : Bytes) : Bytes :=
  f.take 1 ++ (f.drop 1).flatMap (fun b =>
    if b = 0x7E ∨ b = 0x7D ∨ b = 0x11 ∨ b = 0x13 then [p.escByte, b ^^^ p.escXor] else [b])

/-- The frame a builder returns: escaped when CFG.ESC is 1 (10_state.md R25). -/
def specSent (s : State) (f : Bytes) : Bytes := if s.cfg.getLsbD 0 then specEscape s.params f else f

/-- `innerCrc16` over the first `n` bytes of `m`, positions 3 and 4 skipped (40_checksum.md R138). -/
def specCrc (p : Params) (m : Bytes) (n : Nat) : Half :=
  ((List.range n).filter (fun i => i != 3 && i != 4)).foldl (fun c i => crcUpdate p.crc c (m.getD i 0)) p.crcInit

/-- The inner message before its CRC is written (30_encoding.md R97). -/
def specInnerZero (d s c : Byte) (off : Half) (data : Bytes) : Bytes :=
  [d, s, BitVec.ofNat 8 (8 + data.length), 0, 0, c, off.setWidth 8, (off >>> 8).setWidth 8] ++ data

/-- The inner message with the CRC `crc`, low byte first (30_encoding.md R97, R99). -/
def specInner (d s c : Byte) (off crc : Half) (data : Bytes) : Bytes :=
  [d, s, BitVec.ofNat 8 (8 + data.length), crc.setWidth 8, (crc >>> 8).setWidth 8, c, off.setWidth 8,
    (off >>> 8).setWidth 8] ++ data

/-- The CRC of the inner message of these fields (30_encoding.md R99). -/
def specInnerCrc (p : Params) (d s c : Byte) (off : Half) (data : Bytes) : Half :=
  specCrc p (specInnerZero d s c off data) (8 + data.length)

/-- What a command that writes OUT leaves (00_scope.md R12): OBUF holds the bytes, OLEN their number. -/
def State.Wrote (s : State) (f : Bytes) (t : State) : Prop :=
  s.obuf.Stored 0 f t.obuf ∧ t.olen = BitVec.ofNat 16 f.length

/-! ## Received frames, reset, sequences of one command -/

/-- The first outer frame of `b` (41_outer_frame.md R161): `pre` holds no start byte, then start, length
most significant byte first, exactly as many body bytes, the checksum byte, and whatever follows. -/
def FrameIn (b pre : Bytes) (hi lo : Byte) (body : Bytes) (ck : Byte) (tail : Bytes) : Prop :=
  b = pre ++ 0x7E :: hi :: lo :: (body ++ ck :: tail) ∧ 0x7E ∉ pre ∧
    body.length = 256 * hi.toNat + lo.toNat ∧ 2 ≤ body.length

/-- The frame at the first start byte of `b` is cut short, or declares fewer than 2 body bytes
(41_outer_frame.md R161). -/
def ShortFrameIn (b : Bytes) : Prop :=
  ∃ pre rest, b = pre ++ 0x7E :: rest ∧ 0x7E ∉ pre ∧
    (rest.length < 2 ∨ ∃ hi lo r, rest = hi :: lo :: r ∧
      (256 * hi.toNat + lo.toNat < 2 ∨ r.length < 256 * hi.toNat + lo.toNat + 1))

/-- Every register of 10_state.md R21 but CMD has its reset value for the parameters `p`, FQ is empty and
no byte of a buffer is specified (R44, 70_reset_and_hazards.md R310). -/
def State.AtReset (p : Params) (t : State) : Prop :=
  t.status = 0x00 ∧ t.errlog = 0x0000 ∧ t.cfg = 0x00 ∧
  t.txtype = p.txType ∧ t.txfid = p.txFrameId ∧ t.txrsvd = p.txReserved ∧ t.addr = 0 ∧
  t.bdest = p.busDest ∧ t.bsrc = p.busSrc ∧ t.bcmd = 0x00 ∧ t.boff = 0x0000 ∧ t.breq = 0x0C ∧
  t.ilen = 0 ∧ t.olen = 0 ∧ t.rlen = 0 ∧ t.rtype = 0 ∧ t.rfid = 0 ∧ t.rsum = 0 ∧ t.rpos = 0 ∧
  t.rcrc = 0 ∧ t.blen = 0 ∧ t.ddest = 0 ∧ t.dsrc = 0 ∧ t.dcmd = 0 ∧ t.doff = 0 ∧ t.dcrc = 0 ∧ t.fcnt = 0 ∧
  t.fq = [] ∧ (∀ a, t.ibuf.read a = none) ∧ (∀ a, t.obuf.read a = none)

/-- The event writes no byte of IBUF, runs no command and is no reset (20_memory.md R67, 10_state.md R38). -/
def Event.KeepsInput : Event → Prop
  | .writeReg num _ => num ≠ 0
  | .readReg _ => True
  | .writeBuf sp _ _ => sp = .obuf
  | .readBuf _ _ _ => True
  | .hardReset => False

/-- `n` steps. -/
def stepTimes : Nat → State → Result
  | 0, s => .next s
  | n + 1, s =>
    match step s with
    | .next t => stepTimes n t
    | .fault r => .fault r
    | .refused r => .refused r

/-- One command, `n` times. -/
def execTimes (i : Instr) : Nat → State → Result
  | 0, s => .next s
  | n + 1, s =>
    match exec i s with
    | .next t => execTimes i n t
    | .fault r => .fault r
    | .refused r => .refused r

end Sys2Proof.Machine
end

