-- ==== Sys2Proof/Certificates/Slice0/Obligations.lean ====
section
/-! DEFINITION. The statements about the machine, from the numbered rules of spec/. -/

open Sys2Proof Sys2Proof.Machine

/-! ## Encoding and stepping -/

/-- R110, R112: the decoder and the encoder agree, both ways. -/
def Obligations.DecodeAndEncodeAgree : Prop :=
  (∀ i : Instr, i.wf = true → decode (encode i) = .ok i) ∧
  ∀ (op : Byte) (i : Instr), decode op = .ok i → encode i = op ∧ i.wf = true

/-- R112: the command each assigned opcode selects. -/
def Obligations.OpcodeMapOfTheSpec : Prop :=
  decode 0x00 = .ok .nop ∧ decode 0x01 = .ok .clr ∧ decode 0x02 = .ok .otoi ∧ decode 0x03 = .ok .srst ∧
  decode 0x10 = .ok .osum ∧ decode 0x11 = .ok .ovfy ∧ decode 0x12 = .ok .icrc ∧
  decode 0x20 = .ok .encu ∧ decode 0x21 = .ok .encd ∧ decode 0x22 = .ok .encb ∧ decode 0x23 = .ok .escf ∧
  decode 0x24 = .ok .decf ∧ decode 0x30 = .ok .ienc ∧ decode 0x31 = .ok .iencr ∧ decode 0x32 = .ok .iencw ∧
  decode 0x33 = .ok .idec ∧ decode 0x40 = .ok .demux ∧ decode 0x41 = .ok .fpop

/-- R114: writing one of the 238 unassigned opcodes to CMD stores it, ends with E_ILL (1), sets ERRLOG bit
1 and changes nothing else. -/
def Obligations.IllegalOpcodeOnlyReports : Prop :=
  ∀ (s : State) (v : Byte) (rest : List Event), s.pending = .writeReg 0 (v.setWidth 64) :: rest →
    ((0x04 ≤ v ∧ v ≤ 0x0F) ∨ (0x13 ≤ v ∧ v ≤ 0x1F) ∨ (0x25 ≤ v ∧ v ≤ 0x2F) ∨ (0x34 ≤ v ∧ v ≤ 0x3F) ∨
      (0x42 ≤ v)) →
    step s = .next { s with
      pending := rest, cmd := v, status := specEnd 1 false false s.fcnt, errlog := s.errlog ||| 2 }

/-- R22: a host write of an assigned opcode to CMD stores it and then executes the command it selects, to
its end, in that one step. -/
def Obligations.StepRunsTheDecodedCommand : Prop :=
  ∀ (s : State) (v : Byte) (i : Instr) (rest : List Event),
    s.pending = .writeReg 0 (v.setWidth 64) :: rest → decode v = .ok i →
    step s = exec i { s with pending := rest, cmd := v }

/-- R312 and the model's reading of it (log entry 1): with no access to come the PTFC stays as it is. -/
def Obligations.IdleWithoutAnAccess : Prop :=
  ∀ s : State, s.pending = [] → step s = .next s

/-! ## Buffers -/

/-- R65: a write of `n` bytes stores exactly these bytes at these addresses, every other byte reads as
before, and the buffer stays in canonical form. -/
def Obligations.BufferWriteStoresExactly : Prop :=
  ∀ (m : Mem) (addr : Nat) (bs : Bytes),
    m.Stored addr bs (m.writeBytes addr bs) ∧ (m.wf → (m.writeBytes addr bs).wf)

/-- R35, R36, R65: a host write inside IBUF stores exactly its bytes; one to OBUF is ignored. -/
def Obligations.HostBufferWrites : Prop :=
  ∀ (s : State) (sp : Space) (a : Nat) (bs : Bytes) (rest : List Event),
    s.pending = .writeBuf sp a bs :: rest → a + bs.length ≤ s.params.bufCap →
    ∃ t, step s = .next t ∧
      match sp with
      | .ibuf => s.ibuf.Stored a bs t.ibuf ∧ t = { s with pending := rest, ibuf := t.ibuf }
      | .obuf => t = { s with pending := rest }

/-- R34, R65, 93 U9: an access to a register number above 27, and a buffer access past BUF_CAP, is refused;
so is a value wider than its register (the model's own reading, log entry 10). -/
def Obligations.AccessesOutsideTheSpecAreRefused : Prop :=
  ∀ (s : State) (rest : List Event),
    (∀ num v, 27 < num → s.pending = .writeReg num v :: rest →
      step s = .refused (.noSuchRegister num)) ∧
    (∀ num, 27 < num → s.pending = .readReg num :: rest → step s = .refused (.noSuchRegister num)) ∧
    (∀ num r v, Reg.ofNumber num = some r → 2 ^ r.width ≤ v.toNat → s.pending = .writeReg num v :: rest →
      step s = .refused (.valueTooWide num)) ∧
    (∀ sp a bs, s.params.bufCap < a + bs.length → s.pending = .writeBuf sp a bs :: rest →
      step s = .refused (.outsideBuffer sp a bs.length)) ∧
    (∀ sp a n, s.params.bufCap < a + n → s.pending = .readBuf sp a n :: rest →
      step s = .refused (.outsideBuffer sp a n))

/-- R67, R71, and U8: a host read of a buffer gives the bytes held there, below OLEN in the case of OBUF,
and changes nothing of the PTFC (`answer` and `fresh` are the model's own, log entries 8 and 9). -/
def Obligations.HostBufferReads : Prop :=
  ∀ (s : State) (a n : Nat) (rest : List Event), a + n ≤ s.params.bufCap →
    (s.pending = .readBuf .ibuf a n :: rest →
      ∃ bs : Bytes, bs.length = n ∧ (∀ i b, i < n → s.ibuf.read (a + i) = some b → bs[i]? = some b) ∧
        step s = .next { s with pending := rest, answer := some (.bytes .ibuf a bs) }) ∧
    (s.pending = .readBuf .obuf a n :: rest →
      ∃ bs : Bytes, bs.length = n ∧
        (∀ i b, i < n → a + i < s.olen.toNat → s.obuf.read (a + i) = some b → bs[i]? = some b) ∧
        step s = .next { s with
          pending := rest, answer := some (.bytes .obuf a bs), fresh := s.fresh + n })

/-- R67, and the model's reading of R38 (log entry 7): two host reads of IBUF with no write to IBUF, no command
and no reset between them agree on every byte that both read, written or not. -/
def Obligations.RepeatedInputReadsAgree : Prop :=
  ∀ (s : State) (a n a' n' : Nat) (es rest : List Event),
    s.pending = .readBuf .ibuf a n :: (es ++ .readBuf .ibuf a' n' :: rest) →
    a + n ≤ s.params.bufCap → a' + n' ≤ s.params.bufCap →
    (∀ e ∈ es, e.KeepsInput ∧ e.wf s.params.bufCap = true) →
    ∃ (t u : State) (bs bs' : Bytes), step s = .next t ∧ t.answer = some (.bytes .ibuf a bs) ∧ bs.length = n ∧
      stepTimes (es.length + 1) t = .next u ∧ u.answer = some (.bytes .ibuf a' bs') ∧ bs'.length = n' ∧
      u.pending = rest ∧ ∀ i j, i < n → j < n' → a + i = a' + j → bs[i]? = bs'[j]?

/-! ## Registers -/

/-- The 28 registers in the order of their numbers (10_state.md R21), zero-extended. -/
def registerValues (s : State) : List DWord :=
  [s.cmd.setWidth 64, s.status.setWidth 64, s.errlog.setWidth 64, s.cfg.setWidth 64, s.txtype.setWidth 64,
   s.txfid.setWidth 64, s.txrsvd.setWidth 64, s.addr, s.bdest.setWidth 64, s.bsrc.setWidth 64,
   s.bcmd.setWidth 64, s.boff.setWidth 64, s.breq.setWidth 64, s.ilen.setWidth 64, s.olen.setWidth 64,
   s.rlen.setWidth 64, s.rtype.setWidth 64, s.rfid.setWidth 64, s.rsum.setWidth 64, s.rpos.setWidth 64,
   s.rcrc.setWidth 64, s.blen.setWidth 64, s.ddest.setWidth 64, s.dsrc.setWidth 64, s.dcmd.setWidth 64,
   s.doff.setWidth 64, s.dcrc.setWidth 64, s.fcnt.setWidth 64]

/-- R21, R34: a host read of any of the 28 registers gives its value and has no side effect. -/
def Obligations.RegisterReadsHaveNoSideEffect : Prop :=
  ∀ (s : State) (num : Nat) (rest : List Event), num ≤ 27 → s.pending = .readReg num :: rest →
    step s = .next { s with
      pending := rest, answer := some (.reg num ((registerValues s).getD num 0)) }

/-- R21, R25 to R28, R34: what a host write of a value of the register's width does to every register but
CMD, ERRLOG and ILEN: the read-write registers store it, CFG keeps bits 1:0 only, the read-only ones (1, 14
to 27) ignore it. -/
def Obligations.RegisterWritesStoreOrAreIgnored : Prop :=
  ∀ (s : State) (num : Nat) (v : DWord) (rest : List Event), s.pending = .writeReg num v :: rest →
    (num = 3 → v.toNat < 2 ^ 8 → step s = .next { s with pending := rest, cfg := v.setWidth 8 &&& 3 }) ∧
    (num = 4 → v.toNat < 2 ^ 8 → step s = .next { s with pending := rest, txtype := v.setWidth 8 }) ∧
    (num = 5 → v.toNat < 2 ^ 8 → step s = .next { s with pending := rest, txfid := v.setWidth 8 }) ∧
    (num = 6 → v.toNat < 2 ^ 8 → step s = .next { s with pending := rest, txrsvd := v.setWidth 8 }) ∧
    (num = 7 → step s = .next { s with pending := rest, addr := v }) ∧
    (num = 8 → v.toNat < 2 ^ 8 → step s = .next { s with pending := rest, bdest := v.setWidth 8 }) ∧
    (num = 9 → v.toNat < 2 ^ 8 → step s = .next { s with pending := rest, bsrc := v.setWidth 8 }) ∧
    (num = 10 → v.toNat < 2 ^ 8 → step s = .next { s with pending := rest, bcmd := v.setWidth 8 }) ∧
    (num = 11 → v.toNat < 2 ^ 16 → step s = .next { s with pending := rest, boff := v.setWidth 16 }) ∧
    (num = 12 → v.toNat < 2 ^ 8 → step s = .next { s with pending := rest, breq := v.setWidth 8 }) ∧
    (num ∈ [1, 16, 17, 18, 21, 22, 23, 24] → v.toNat < 2 ^ 8 → step s = .next { s with pending := rest }) ∧
    (num ∈ [14, 15, 19, 20, 25, 26, 27] → v.toNat < 2 ^ 16 → step s = .next { s with pending := rest })

/-- R24: a host write to ERRLOG clears exactly the bits written as 1. -/
def Obligations.ErrlogWriteOneToClear : Prop :=
  ∀ (s : State) (v : Half) (rest : List Event), s.pending = .writeReg 2 (v.setWidth 64) :: rest →
    ∃ t, step s = .next t ∧ t = { s with pending := rest, errlog := t.errlog } ∧
      ∀ k, t.errlog.getLsbD k = (s.errlog.getLsbD k && !v.getLsbD k)

/-- R29: a host write to ILEN stores a value up to BUF_CAP; a greater one leaves ILEN unchanged and sets
ERRLOG bit 10, and STATUS does not change. -/
def Obligations.IlenWriteIsRangeChecked : Prop :=
  ∀ (s : State) (v : Half) (rest : List Event), s.pending = .writeReg 13 (v.setWidth 64) :: rest →
    (v.toNat ≤ s.params.bufCap → step s = .next { s with pending := rest, ilen := v }) ∧
    (s.params.bufCap < v.toNat →
      step s = .next { s with pending := rest, errlog := s.errlog ||| 0x0400 })

/-! ## Reset -/

/-- R310: hardware reset puts every register at its reset value, CMD at 0x00, empties FQ and leaves no byte
of a buffer specified. The parameters stay. -/
def Obligations.HardwareReset : Prop :=
  ∀ (s : State) (rest : List Event), s.pending = .hardReset :: rest →
    ∃ t, step s = .next t ∧ t.cmd = 0x00 ∧ t.AtReset s.params ∧ t.params = s.params ∧
      t.pending = rest ∧ t.answer = s.answer ∧ t.fresh = s.fresh

/-- R44, R310: `State.reset` is the state after hardware reset with every parameter that has one at the default of
R8 (log entries 4, 5, 11); BUS_DEST and BUS_SRC have none (log entry 3). -/
def Obligations.ResetValues : Prop :=
  State.reset.cmd = 0x00 ∧ State.reset.AtReset State.reset.params ∧
  State.reset.params.bufCap = 1024 ∧ State.reset.txtype = 0x00 ∧ State.reset.txfid = 0x00 ∧
  State.reset.txrsvd = 0x00 ∧ State.reset.params.bcastAddr = 0xFFFF ∧ State.reset.params.escByte = 0x7D ∧
  State.reset.params.escXor = 0x20 ∧ State.reset.params.crcInit = 0x0000 ∧
  State.reset.params.crc = crcCandidate ∧ State.reset.params.innerDataMax = 247 ∧
  State.reset.params.innerMin = 8

/-! ## Control commands -/

/-- R215: NOP writes STATUS and nothing else. -/
def Obligations.NopOnlyWritesStatus : Prop :=
  ∀ s : State, exec .nop s = .next { s with status := specEnd 0 false false s.fcnt }

/-- R216: CLR. -/
def Obligations.ClrEmptiesInOutAndQueue : Prop :=
  ∀ s : State, exec .clr s = .next { s with ilen := 0, olen := 0, fq := [], fcnt := 0, status := 0x00 }

/-- R217: OTOI copies OUT to IN; no other byte of IBUF and nothing else but STATUS changes. -/
def Obligations.OtoiCopiesOutToIn : Prop :=
  ∀ (s : State) (f : Bytes), s.OutIs f →
    ∃ t, exec .otoi s = .next t ∧ s.ibuf.Stored 0 f t.ibuf ∧
      t = { s with ibuf := t.ibuf, ilen := s.olen, status := specEnd 0 false false s.fcnt }

/-- R218, R311: SRST produces the reset state, but CMD keeps its value. -/
def Obligations.SrstResetsAllButCmd : Prop :=
  ∀ s : State, ∃ t, exec .srst s = .next t ∧ t.cmd = s.cmd ∧ t.AtReset s.params ∧ t.params = s.params ∧
    t.pending = s.pending ∧ t.answer = s.answer ∧ t.fresh = s.fresh

/-! ## Checksum commands -/

/-- R131 with R130: OSUM. -/
def Obligations.OsumGivesTheOuterChecksum : Prop :=
  ∀ (s : State) (b : Bytes), s.InIs b →
    exec .osum s = .next { s with rsum := specSum b, status := specEnd 0 false false s.fcnt }

/-- R133: OVFY, whatever CFG.STRICT is: success, E_OCHK, E_NOSTART, E_SHORT. -/
def Obligations.OvfyVerifiesTheFirstFrame : Prop :=
  ∀ (s : State) (b : Bytes), s.InIs b →
    (∀ pre hi lo body ck tail, FrameIn b pre hi lo body ck tail →
      (ck = specSum body → exec .ovfy s = .next { s with
        rsum := specSum body, rlen := BitVec.ofNat 16 body.length, rpos := BitVec.ofNat 16 pre.length,
        status := specEnd 0 true false s.fcnt }) ∧
      (ck ≠ specSum body → exec .ovfy s = .next (s.failed 4))) ∧
    (0x7E ∉ b → exec .ovfy s = .next (s.failed 2)) ∧
    (ShortFrameIn b → exec .ovfy s = .next (s.failed 3))

/-- R142 with R138: ICRC. That `ILEN < 3` alone ends with E_SHORT, also where IN covers a byte never written, is
log entry 6. -/
def Obligations.IcrcComputesTheInnerCrc : Prop :=
  ∀ s : State,
    (s.ilen.toNat < 3 → exec .icrc s = .next (s.failed 3)) ∧
    ∀ (b : Bytes) (n : Nat), s.InIs b → 3 ≤ b.length → n = (b.getD 2 0).toNat →
      (b.length < n → exec .icrc s = .next (s.failed 3)) ∧
      (n ≤ b.length → exec .icrc s = .next { s with
        rcrc := specCrc s.params b n, blen := b.getD 2 0,
        dcrc := if 5 ≤ n then BitVec.ofNat 16 ((b.getD 3 0).toNat + 256 * (b.getD 4 0).toNat) else 0,
        status := specEnd 0 false
          (decide (5 ≤ n ∧ (b.getD 3 0).toNat + 256 * (b.getD 4 0).toNat = (specCrc s.params b n).toNat))
          s.fcnt })

/-! ## Outer frame commands -/

/-- ENCU's pseudocode (R150) for the address `a`: the frame to OUT with RLEN and RSUM; E_OVF where the
finished frame does not fit; E_LEN where the length does not fit its field, also where IN covers a byte never
written (log entry 6). -/
def BuildsAddressedFrame (i : Instr) (a : State → DWord) : Prop :=
  ∀ s : State,
    (65535 < s.ilen.toNat + 11 → exec i s = .next (s.failed 6)) ∧
    ∀ p f : Bytes, s.InIs p → p.length + 11 ≤ 65535 →
      f = specSent s (specFrame s.txtype s.txfid (specAddr (a s)) s.txrsvd p) →
      (s.params.bufCap < f.length → exec i s = .next (s.failed 7)) ∧
      (f.length ≤ s.params.bufCap → ∃ t, exec i s = .next t ∧ s.Wrote f t ∧
        t = { s with
          obuf := t.obuf, olen := t.olen, rlen := BitVec.ofNat 16 (p.length + 11),
          rsum := specSum ([s.txtype, s.txfid] ++ specAddr (a s) ++ [s.txrsvd] ++ p),
          status := specEnd 0 false false s.fcnt })

/-- R150 with R151, R93: ENCU (log entries 4, 6). -/
def Obligations.EncuBuildsTheUnicastFrame : Prop := BuildsAddressedFrame .encu (fun s => s.addr)

/-- R155 with R94: ENCB, the address replaced by BCAST_ADDR (log entries 4, 6). -/
def Obligations.EncbBuildsTheBroadcastFrame : Prop :=
  BuildsAddressedFrame .encb (fun s => s.params.bcastAddr)

/-- R153, R95: ENCD writes the literal discovery frame, whatever CFG.ESC is; RSUM is not written. -/
def Obligations.EncdBuildsTheDiscoveryFrame : Prop :=
  ∀ s : State, ∃ t, exec .encd s = .next t ∧
    s.obuf.Stored 0 [0x7E, 0x00, 0x04, 0x08, 0x01, 0x4E, 0x44, 0x64] t.obuf ∧
    t = { s with obuf := t.obuf, olen := 8, rlen := 4, status := specEnd 0 false false s.fcnt }

/-- R159 with R158: ESCF escapes IN whatever CFG.ESC is; E_OVF where the result does not fit. -/
def Obligations.EscfEscapesIn : Prop :=
  ∀ (s : State) (b : Bytes), s.InIs b →
    (s.params.bufCap < (specEscape s.params b).length → exec .escf s = .next (s.failed 7)) ∧
    ((specEscape s.params b).length ≤ s.params.bufCap →
      ∃ t, exec .escf s = .next t ∧ s.Wrote (specEscape s.params b) t ∧
        t = { s with obuf := t.obuf, olen := t.olen, status := specEnd 0 false false s.fcnt })

/-- R162 with R161: DECF. -/
def Obligations.DecfExtractsTheFirstFrame : Prop :=
  ∀ (s : State) (b : Bytes), s.InIs b →
    (∀ pre hi lo body ck tail, FrameIn b pre hi lo body ck tail →
      (s.cfg.getLsbD 1 = true ∧ ck ≠ specSum body → exec .decf s = .next (s.failed 4)) ∧
      (s.cfg.getLsbD 1 = false ∨ ck = specSum body →
        ∃ t, exec .decf s = .next t ∧ s.Wrote (0x7E :: hi :: lo :: (body ++ [ck])) t ∧
          t = { s with
            obuf := t.obuf, olen := t.olen, rlen := BitVec.ofNat 16 body.length,
            rtype := body.getD 0 0, rfid := body.getD 1 0, rsum := specSum body,
            rpos := BitVec.ofNat 16 pre.length,
            status := specEnd 0 (decide (ck = specSum body)) false s.fcnt })) ∧
    (0x7E ∉ b → exec .decf s = .next (s.failed 2)) ∧
    (ShortFrameIn b → exec .decf s = .next (s.failed 3))

/-! ## Inner bus commands -/

/-- What IENC, IENCR and IENCW leave for the command byte `c` and the data `d` (R180): the message with its
CRC to OUT, RCRC, BLEN and STATUS; nothing else changes. -/
def BuildsInnerMessage (i : Instr) (s : State) (c : Byte) (d : Bytes) : Prop :=
  ∃ t crc, exec i s = .next t ∧ crc = specInnerCrc s.params s.bdest s.bsrc c s.boff d ∧
    s.Wrote (specInner s.bdest s.bsrc c s.boff crc d) t ∧
    t = { s with
      obuf := t.obuf, olen := t.olen, rcrc := crc, blen := BitVec.ofNat 8 (8 + d.length),
      status := specEnd 0 false false s.fcnt }

/-- R181: IENC; E_LEN when more than INNER_DATA_MAX (247) data bytes are offered. That ILEN alone decides this,
also where IN covers a byte never written, is log entry 6; that 247 bounds a machine whose INNER_DATA_MAX is
greater is log entry 11. -/
def Obligations.IencBuildsAnInnerMessage : Prop :=
  ∀ s : State,
    (s.params.innerDataMax < s.ilen.toNat ∨ 247 < s.ilen.toNat → exec .ienc s = .next (s.failed 6)) ∧
    ∀ d : Bytes, s.InIs d → d.length ≤ s.params.innerDataMax → d.length ≤ 247 →
      BuildsInnerMessage .ienc s s.bcmd d

/-- R183: IENCR. -/
def Obligations.IencrBuildsAReadRequest : Prop :=
  ∀ s : State, BuildsInnerMessage .iencr s 0x52 [s.breq]

/-- R185: IENCW; E_ARG when more than 12 data bytes are offered, also where IN covers a byte never written (log
entry 6). -/
def Obligations.IencwBuildsAWriteRequest : Prop :=
  ∀ s : State, (12 < s.ilen.toNat → exec .iencw s = .next (s.failed 9)) ∧
    ∀ d : Bytes, s.InIs d → d.length ≤ 12 → BuildsInnerMessage .iencw s 0x57 d

/-- R188: IDEC. That `ILEN < 3` alone ends with E_SHORT, also where IN covers a byte never written, is log entry 6;
that 8 bounds a machine whose INNER_MIN is smaller is log entry 11. -/
def Obligations.IdecDecodesTheInnerMessage : Prop :=
  ∀ s : State,
    (s.ilen.toNat < 3 → exec .idec s = .next (s.failed 3)) ∧
    (∀ b : Bytes, s.InIs b → 3 ≤ b.length →
      (b.getD 2 0).toNat < s.params.innerMin ∨ (b.getD 2 0).toNat < 8 ∨ b.length < (b.getD 2 0).toNat →
      exec .idec s = .next (s.failed 3)) ∧
    ∀ (d sr n lo hi c ol oh : Byte) (data tail : Bytes) (crc : Half),
      s.InIs (d :: sr :: n :: lo :: hi :: c :: ol :: oh :: (data ++ tail)) → n.toNat = 8 + data.length →
      s.params.innerMin ≤ n.toNat →
      crc = specCrc s.params (d :: sr :: n :: lo :: hi :: c :: ol :: oh :: data) n.toNat →
      (s.cfg.getLsbD 1 = true ∧ lo.toNat + 256 * hi.toNat ≠ crc.toNat →
        exec .idec s = .next (s.failed 5)) ∧
      (s.cfg.getLsbD 1 = false ∨ lo.toNat + 256 * hi.toNat = crc.toNat →
        ∃ t, exec .idec s = .next t ∧ s.Wrote data t ∧
          t = { s with
            obuf := t.obuf, olen := t.olen, ddest := d, dsrc := sr, blen := n,
            dcrc := BitVec.ofNat 16 (lo.toNat + 256 * hi.toNat), rcrc := crc, dcmd := c,
            doff := BitVec.ofNat 16 (ol.toNat + 256 * oh.toNat),
            status := specEnd 0 false (decide (lo.toNat + 256 * hi.toNat = crc.toNat)) s.fcnt })

/-! ## Demultiplexer commands -/

/-- R201 with R200, R202 (a) to (d): DEMUX replaces FQ by candidates that concatenate to IN, are non-empty,
have a start byte nowhere but first, and begin with one, all but possibly the first; there is one candidate
for each start byte, and one more for leading bytes. -/
def Obligations.DemuxSplitsIn : Prop :=
  ∀ (s : State) (b : Bytes), s.InIs b → ∃ t, exec .demux s = .next t ∧
    t.fq.flatten = b ∧ (∀ f ∈ t.fq, f ≠ [] ∧ 0x7E ∉ f.tail) ∧ (∀ f ∈ t.fq.tail, f.head? = some 0x7E) ∧
    t.fq.length = b.count 0x7E + (if b ≠ [] ∧ b.head? ≠ some 0x7E then 1 else 0) ∧
    t = { s with
      fq := t.fq, fcnt := BitVec.ofNat 16 t.fq.length,
      status := specEnd 0 false false (BitVec.ofNat 16 t.fq.length) }

/-- R205: FPOP moves the first candidate to OUT; with FQ empty it ends with E_EMPTY. -/
def Obligations.FpopMovesTheFirstCandidate : Prop :=
  ∀ s : State,
    (s.fq = [] → exec .fpop s = .next (s.failed 8)) ∧
    ∀ f q, s.fq = f :: q → ∃ t, exec .fpop s = .next t ∧ s.Wrote f t ∧
      t = { s with
        obuf := t.obuf, olen := t.olen, fq := q, fcnt := s.fcnt - 1,
        status := specEnd 0 false false (s.fcnt - 1) }

/-! ## Rules of the whole machine -/

/-- R281: a command that ends with an error changes STATUS and ERRLOG and nothing else. -/
def Obligations.FailedCommandChangesOnlyStatusAndErrlog : Prop :=
  ∀ (i : Instr) (s t : State), exec i s = .next t → t.status &&& 0x0F ≠ 0 →
    ∃ n, 1 ≤ n ∧ n ≤ 9 ∧ t.status &&& 0x0F = BitVec.ofNat 8 n ∧ t = s.failed n

/-- The codes R283 lists for a command; those that need CFG.STRICT = 1 only then. -/
def errorsListed (strict : Bool) : Instr → List Nat
  | .nop | .clr | .otoi | .srst | .osum | .encd | .iencr | .demux => []
  | .ovfy => [2, 3, 4]
  | .icrc => [3]
  | .encu | .encb => [6, 7]
  | .escf => [7]
  | .decf => if strict then [2, 3, 4] else [2, 3]
  | .ienc => [6]
  | .iencw => [9]
  | .idec => if strict then [3, 5] else [3]
  | .fpop => [8]

/-- R283: no command ends with an error that is not listed for it. -/
def Obligations.ErrorsPerCommand : Prop :=
  ∀ (i : Instr) (s t : State), exec i s = .next t →
    (t.status &&& 0x0F).toNat = 0 ∨ (t.status &&& 0x0F).toNat ∈ errorsListed (s.cfg.getLsbD 1) i

/-- R289, R38: every command ends in a next state, but for the fault on IN covering an unwritten byte; none
is refused. -/
def Obligations.CommandsAlwaysEnd : Prop :=
  ∀ (i : Instr) (s : State), (∃ t, exec i s = .next t) ∨
    (s.InUnwritten ∧ ∃ a, exec i s = .fault (.uninitialisedInput a))

/-- R38: a command that reads IN faults where IN covers a byte never written, at the least such address. A
length that alone makes the command fail is looked at first (log entry 6). -/
def Obligations.UninitialisedInputFaults : Prop :=
  ∀ (i : Instr) (s : State), s.InUnwritten →
    i ∈ [Instr.osum, .ovfy, .escf, .decf, .demux] ∨
      (i ∈ [Instr.encu, .encb] ∧ s.ilen.toNat + 11 ≤ 65535) ∨
      (i ∈ [Instr.icrc, .idec] ∧ 3 ≤ s.ilen.toNat) ∨
      (i = .ienc ∧ s.ilen.toNat ≤ s.params.innerDataMax ∧ s.ilen.toNat ≤ 247) ∨
      (i = .iencw ∧ s.ilen.toNat ≤ 12) →
    ∃ a, exec i s = .fault (.uninitialisedInput a) ∧ a < s.ilen.toNat ∧ s.ibuf.read a = none ∧
      ∀ k, k < a → s.ibuf.read k ≠ none

/-- R23: STATUS after every command: bit 7 is 0, FQNE is `FCNT > 0`, CKOK only from DECF and OVFY, CRCOK
only from ICRC and IDEC, neither after an error. -/
def Obligations.StatusOfEveryCommand : Prop :=
  ∀ (i : Instr) (s t : State), exec i s = .next t →
    t.status.getLsbD 7 = false ∧ t.status.getLsbD 6 = decide (t.fcnt ≠ 0) ∧
    (t.status.getLsbD 4 = true → i = .decf ∨ i = .ovfy) ∧
    (t.status.getLsbD 5 = true → i = .icrc ∨ i = .idec) ∧
    (t.status &&& 0x0F ≠ 0 → t.status.getLsbD 4 = false ∧ t.status.getLsbD 5 = false)

/-- R24: a command that ends with error `n` sets ERRLOG bit `n`; no command but SRST changes ERRLOG
otherwise, so a bit once set stays set. -/
def Obligations.ErrlogIsSticky : Prop :=
  ∀ (i : Instr) (s t : State), i ≠ .srst → exec i s = .next t → ∀ k,
    t.errlog.getLsbD k = (s.errlog.getLsbD k ||
      (decide (1 ≤ k) && decide (k = (t.status &&& 0x0F).toNat)))

/-- R21, the column "written by", and R61: a register, a buffer or FQ is changed by no command but those
listed for it (STATUS, which every command writes, has no clause; ERRLOG is written by a command that fails,
and by SRST); and no command changes the model's own fields but SRST, which starts a new epoch. -/
def Obligations.OnlyListedCommandsWrite : Prop :=
  ∀ (i : Instr) (s t : State), exec i s = .next t →
    t.cmd = s.cmd ∧ t.params = s.params ∧ t.pending = s.pending ∧ t.answer = s.answer ∧ t.fresh = s.fresh ∧
    (i ≠ .srst → t.status &&& 0x0F = 0 → t.errlog = s.errlog) ∧
    (i ≠ .srst → t.epoch = s.epoch ∧ t.cfg = s.cfg ∧ t.txtype = s.txtype ∧ t.txfid = s.txfid ∧
      t.txrsvd = s.txrsvd ∧ t.addr = s.addr ∧ t.bdest = s.bdest ∧ t.bsrc = s.bsrc ∧ t.bcmd = s.bcmd ∧
      t.boff = s.boff ∧ t.breq = s.breq) ∧
    (i ∉ [Instr.otoi, .srst] → t.ibuf = s.ibuf) ∧
    (i ∉ [Instr.otoi, .clr, .srst] → t.ilen = s.ilen) ∧
    (i ∉ [Instr.encu, .encd, .encb, .escf, .decf, .ienc, .iencr, .iencw, .idec, .fpop, .srst] →
      t.obuf = s.obuf ∧ (i ≠ .clr → t.olen = s.olen)) ∧
    (i ∉ [Instr.encu, .encd, .encb, .decf, .ovfy, .srst] → t.rlen = s.rlen) ∧
    (i ∉ [Instr.decf, .srst] → t.rtype = s.rtype ∧ t.rfid = s.rfid) ∧
    (i ∉ [Instr.osum, .ovfy, .encu, .encb, .decf, .srst] → t.rsum = s.rsum) ∧
    (i ∉ [Instr.decf, .ovfy, .srst] → t.rpos = s.rpos) ∧
    (i ∉ [Instr.icrc, .ienc, .iencr, .iencw, .idec, .srst] → t.rcrc = s.rcrc ∧ t.blen = s.blen) ∧
    (i ∉ [Instr.idec, .srst] → t.ddest = s.ddest ∧ t.dsrc = s.dsrc ∧ t.dcmd = s.dcmd ∧ t.doff = s.doff) ∧
    (i ∉ [Instr.idec, .icrc, .srst] → t.dcrc = s.dcrc) ∧
    (i ∉ [Instr.demux, .fpop, .clr, .srst] → t.fq = s.fq ∧ t.fcnt = s.fcnt)

/-- Every step keeps the invariant (R23 to R25, R29, R30, R33, R35 to R37), whatever the event. -/
def Obligations.StepKeepsTheInvariant : Prop :=
  ∀ s t : State, s.Inv → step s = .next t → t.Inv

/-- The state after reset meets the invariant. -/
def Obligations.ResetMeetsTheInvariant : Prop := State.reset.Inv

/-- R20: the parameters are fixed for the life of the hardware. -/
def Obligations.StepKeepsTheParameters : Prop :=
  ∀ s t : State, step s = .next t → t.params = s.params

/-! ## Commands in sequence -/

/-- R164: with CFG.ESC = 0, ENCU or ENCB, then OTOI, then DECF gives back the frame, whatever CFG.STRICT is
and whatever the payload holds. -/
def Obligations.OuterFrameRoundTrip : Prop :=
  ∀ (i : Instr) (s : State) (p : Bytes), i = .encu ∨ i = .encb → s.Inv → s.InIs p →
    s.cfg.getLsbD 0 = false → p.length + 15 ≤ s.params.bufCap →
    ∃ t₁ t₂ t₃ f, exec i s = .next t₁ ∧ t₁.OutIs f ∧ exec .otoi t₁ = .next t₂ ∧ exec .decf t₂ = .next t₃ ∧
      t₃.OutIs f ∧ t₃.status &&& 0x3F = 0x10 ∧ t₃.rlen.toNat = p.length + 11 ∧ t₃.rpos = 0 ∧
      t₃.rtype = s.txtype ∧ t₃.rfid = s.txfid

/-- IENC, IENCR or IENCW, then OTOI, then IDEC: ERR = 0, CRCOK = 1 and every field as it was built. -/
def InnerRoundTripOf (i : Instr) (s : State) (c : Byte) (d : Bytes) : Prop :=
  ∃ t₁ t₂ t₃, exec i s = .next t₁ ∧ exec .otoi t₁ = .next t₂ ∧ exec .idec t₂ = .next t₃ ∧
    t₃.OutIs d ∧ t₃.status &&& 0x3F = 0x20 ∧ t₃.ddest = s.bdest ∧ t₃.dsrc = s.bsrc ∧ t₃.dcmd = c ∧
    t₃.doff = s.boff ∧ t₃.blen.toNat = 8 + d.length ∧ t₃.dcrc = t₃.rcrc

/-- R189: the inner round trips, for every instantiation of CrcUpdate. The codes 0x52 and 0x57 of 'R' and 'W' are
log entry 4's; INNER_DATA_MAX and INNER_MIN count where they are not 247 and 8 (log entry 11). -/
def Obligations.InnerMessageRoundTrip : Prop :=
  ∀ s : State,
    (∀ d, s.InIs d → d.length ≤ s.params.innerDataMax → d.length ≤ 247 → s.params.innerMin ≤ 8 + d.length →
      InnerRoundTripOf .ienc s s.bcmd d) ∧
    (s.params.innerMin ≤ 9 → InnerRoundTripOf .iencr s 0x52 [s.breq]) ∧
    (∀ d, s.InIs d → d.length ≤ 12 → s.params.innerMin ≤ 8 + d.length → InnerRoundTripOf .iencw s 0x57 d)

/-- R186, R103: IENCR, OTOI, ENCB build the 24-byte broadcast read request, the inner message at offset
14. -/
def Obligations.RelayedReadRequest : Prop :=
  ∀ s : State, s.Inv → s.cfg.getLsbD 0 = false →
    ∃ t₁ t₂ t₃ m f, exec .iencr s = .next t₁ ∧ exec .otoi t₁ = .next t₂ ∧ exec .encb t₂ = .next t₃ ∧
      t₃.OutIs f ∧ f.length = 24 ∧ (f.drop 14).take 9 = m ∧
      m = specInner s.bdest s.bsrc 0x52 s.boff
        (specInnerCrc s.params s.bdest s.bsrc 0x52 s.boff [s.breq]) [s.breq] ∧
      f = specFrame s.txtype s.txfid (specAddr s.params.bcastAddr) s.txrsvd m ∧ t₃.status &&& 0x3F = 0

/-- R202 (e), (f): DEMUX on a concatenation of frames that each begin with a start byte and hold no other
gives exactly these frames, the last one truncated or not. -/
def Obligations.DemuxRecoversConcatenatedFrames : Prop :=
  ∀ (s : State) (frames : List Bytes), s.InIs frames.flatten →
    (∀ f ∈ frames, f.head? = some 0x7E ∧ 0x7E ∉ f.tail) →
    ∃ t, exec .demux s = .next t ∧ t.fq = frames ∧ t.fcnt.toNat = frames.length

/-- R205, R37: FPOP gives the candidates in their order, each once: after as many FPOPs as stand before it
and one more, a candidate is OUT and only the ones behind it are left. -/
def Obligations.FpopGivesCandidatesInOrder : Prop :=
  ∀ (s : State) (before : List Bytes) (f : Bytes) (behind : List Bytes),
    s.fq = before ++ f :: behind → f.length < 65536 →
    ∃ t, execTimes .fpop (before.length + 1) s = .next t ∧ t.OutIs f ∧ t.fq = behind ∧
      t.status &&& 0x0F = 0 ∧ t.ibuf = s.ibuf

/-- R132 (b), as V-S4 states it: the body and the checksum of every frame that ENCU, ENCB or ENCD builds
with CFG.ESC = 0 sum to 0xFF modulo 256. -/
def Obligations.BuiltFramesSumToFF : Prop :=
  ∀ (i : Instr) (s t : State) (f : Bytes), i ∈ [Instr.encu, .encb, .encd] → s.Inv →
    s.cfg.getLsbD 0 = false → exec i s = .next t → t.status &&& 0x0F = 0 → t.OutIs f →
    ((f.drop 3).map (fun b => b.toNat)).sum % 256 = 0xFF

/-- R158: with the default ESC_BYTE and ESC_XOR, ESCF's output has no start byte after its first byte, and
is longer than IN by the number of escaped bytes. -/
def Obligations.EscapedFrameHasNoInnerStart : Prop :=
  ∀ (s t : State) (b f : Bytes), s.Inv → s.InIs b → s.params.escByte = 0x7D → s.params.escXor = 0x20 →
    exec .escf s = .next t → t.status &&& 0x0F = 0 → t.OutIs f →
    0x7E ∉ f.tail ∧ f.head? = b.head? ∧
      f.length = b.length + b.tail.countP (fun x => x == 0x7E || x == 0x7D || x == 0x11 || x == 0x13)

/-! ## The inner CRC -/

/-- R143 (a), (b): for every instantiation of CrcUpdate, RCRC of ICRC depends on nothing but the parameters
and the bytes within the declared length other than the two of the CRC field. -/
def Obligations.IcrcIgnoresTheCrcField : Prop :=
  ∀ (s s' t t' : State) (b b' : Bytes), s.InIs b → s'.InIs b' → s.params = s'.params →
    (∀ k, k < (b.getD 2 0).toNat ∨ k = 2 → k ≠ 3 → k ≠ 4 → b.getD k 0 = b'.getD k 0) →
    exec .icrc s = .next t → exec .icrc s' = .next t' → t.status &&& 0x0F = 0 → t'.status &&& 0x0F = 0 →
    t.rcrc = t'.rcrc

/-- One step of the bit-serial equivalent (R144). -/
def serialStep (crc : Half) (x : Bool) : Half :=
  if crc.getLsbD 15 != x then (crc <<< 1) ^^^ 0xA001 else crc <<< 1

/-- R144 with R140, R141: eight bit-serial steps, bit 7 first, equal the candidate's two nibble steps. -/
def Obligations.CandidateCrcIsBitSerial : Prop :=
  ∀ (crc : Half) (b : Byte),
    crcUpdate crcCandidate crc b = ([7, 6, 5, 4, 3, 2, 1, 0].map (fun k => b.getLsbD k)).foldl serialStep crc

/-- R143, the last sentence: under the candidate update, changing exactly one fed byte other than the length
byte always changes the CRC that ICRC computes. -/
def Obligations.OneChangedByteChangesTheCandidateCrc : Prop :=
  ∀ (s s' t t' : State) (b : Bytes) (k : Nat) (v : Byte), s.params.crc = crcCandidate →
    s.params = s'.params → s.InIs b → s'.InIs (b.set k v) → k < (b.getD 2 0).toNat → k ≠ 2 → k ≠ 3 → k ≠ 4 →
    b.getD k 0 ≠ v → exec .icrc s = .next t → exec .icrc s' = .next t' →
    t.status &&& 0x0F = 0 → t'.status &&& 0x0F = 0 → t.rcrc ≠ t'.rcrc

/-! ## The host's sessions (45_host_sessions.md; host software, log entry 13) -/

/-- R248 step 2, R249: while a read session has pages to come, no frame, a frame below the minimum length, or one
equal to the last accepted page is discarded: nothing is appended, the offset does not advance, the same
request is sent again. That `retries` counts these is log entry 13. -/
def Obligations.ReadSessionDiscards : Prop :=
  ∀ (h : HostParams) (s : ReadSession) (r : Option Bytes),
    s.phase = .idle ∨ s.phase = .requesting ∨ s.phase = .awaitingResponse → s.pages < h.readMaxPages →
    (∀ e, r = some e → e.length < h.extractedMin ∨ s.last = some e) →
    readStep h s r = { s with phase := .awaitingResponse, retries := s.retries + 1 }

/-- R248 steps 3 and 4, R249, R250: a novel, sufficiently long page is accepted: its bytes 16 to the last but one
are appended, the offset advances by the page size, and the session asks for the next page, or is done at
READ_MAX_PAGES pages (that these are accepted pages is log entry 13). -/
def Obligations.ReadSessionAcceptsANovelPage : Prop :=
  ∀ (h : HostParams) (s : ReadSession) (e : Bytes),
    s.phase = .idle ∨ s.phase = .requesting ∨ s.phase = .awaitingResponse → s.pages < h.readMaxPages →
    h.extractedMin ≤ e.length → s.last ≠ some e →
    readStep h s (some e) = { s with
      phase := if s.pages + 1 = h.readMaxPages then .done else .requesting
      last := some e, record := s.record ++ (e.take (e.length - 1)).drop 16, pages := s.pages + 1,
      baseOffset := s.baseOffset + s.pageSize.setWidth 16,
      bytesTransferred := s.bytesTransferred + BitVec.ofNat 32 (e.length - 17) }

/-- R251 with R248 to R250: whatever a read session of a slot is given, its record is the concatenation of the
data of frames it was given, in their order, no two neighbours among them equal, each long enough, at most
READ_MAX_PAGES of them, and its offset has advanced by 12 for each. -/
def Obligations.ReadSessionRepeatsNoNeighbouringFrame : Prop :=
  ∀ (h : HostParams) (slot : Nat) (responses : List (Option Bytes)),
    ∃ accepted : List Bytes,
      let s := responses.foldl (readStep h) (readStart slot)
      accepted.Sublist (responses.filterMap id) ∧ (∀ e ∈ accepted, h.extractedMin ≤ e.length) ∧
      (∀ k, k + 1 < accepted.length → accepted[k]? ≠ accepted[k + 1]?) ∧
      accepted.length ≤ h.readMaxPages ∧ s.record = accepted.flatMap pageData ∧
      s.baseOffset = BitVec.ofNat 16 (128 * slot + 12 * accepted.length)

/-- R257, R261: a page whose readback mismatches `k` times, at most WRITE_RETRY_MAX, and then matches, is reported
as written; the offset advances by the page size, the data by one chunk, and the session goes on with a fresh
retry count, or terminates with the last of the data (R259). -/
def Obligations.WriteSessionRetriesThenAdvances : Prop :=
  ∀ (h : HostParams) (s : WriteSession) (bad : List (Option Bytes)) (good : Bytes),
    s.phase = .idle ∨ s.phase = .advancing → s.retries = 0 → s.remaining ≠ [] → h.writeRetryMax < 2 ^ 32 →
    bad.length ≤ h.writeRetryMax → (∀ r ∈ bad, r.map pageData ≠ some (writeChunk h s)) →
    pageData good = writeChunk h s →
    let t := (bad ++ [some good]).foldl (writeStep h) s
    t.baseOffset = s.baseOffset + s.pageSize.setWidth 16 ∧ t.remaining = s.remaining.drop s.pageSize.toNat ∧
      t.reports = s.reports ++ [.written s.pageIndex] ∧ t.pageIndex = s.pageIndex + 1 ∧ t.retries = 0 ∧
      t.phase = if t.remaining = [] then .terminated else .advancing

/-- R257, R258, R261: while every readback mismatches, a write session retries its page and does not advance the
offset; after the configured bound it is abandoned under the default policy, with the page index and the last
readback reported, and stays so whatever comes. -/
def Obligations.WriteSessionStopsAtTheRetryBound : Prop :=
  ∀ (h : HostParams) (s : WriteSession) (bad : List (Option Bytes)) (final : Option Bytes)
    (later : List (Option Bytes)),
    s.phase = .idle ∨ s.phase = .advancing → s.retries = 0 → s.remaining ≠ [] → h.abandon = .abort →
    h.writeRetryMax < 2 ^ 32 → (∀ r ∈ bad ++ [final], r.map pageData ≠ some (writeChunk h s)) →
    (bad.length < h.writeRetryMax →
      (bad ++ [final]).foldl (writeStep h) s =
        { s with phase := .retrying, retries := BitVec.ofNat 32 (bad.length + 1) }) ∧
    (bad.length = h.writeRetryMax →
      (bad ++ final :: later).foldl (writeStep h) s =
        { s with
          phase := .abandoned, retries := BitVec.ofNat 32 h.writeRetryMax,
          reports := s.reports ++ [.failed s.pageIndex final] })
end

