-- ==== Sys2Proof/Laws/Memory.lean ====
section
/-! SUPPORT. What reading and writing a buffer do, and that every write keeps the canonical form. -/

namespace Sys2Proof.Machine

theorem Mem.read_write (m : Mem) (a k : Nat) (b : Byte) :
    (m.write a b).read k = if k = a then some b else m.read k := by
  induction m with
  | nil => simp only [Mem.write, Mem.read, eq_comm]
  | cons c rest ih =>
    obtain ⟨x, v⟩ := c
    simp only [Mem.write]
    split
    · simp only [Mem.read, eq_comm]
    · split
      · subst_vars
        simp only [Mem.read, eq_comm]
        split <;> simp_all
      · simp only [Mem.read, ih]
        split <;> split <;> simp_all

theorem Mem.read_writeBytes (m : Mem) (addr : Nat) (bs : Bytes) (k : Nat) :
    (m.writeBytes addr bs).read k =
      if addr ≤ k ∧ k < addr + bs.length then bs[k - addr]? else m.read k := by
  induction bs generalizing m addr with
  | nil => simp [Mem.writeBytes]
  | cons b bs ih =>
    simp only [Mem.writeBytes, ih, Mem.read_write, List.length_cons]
    by_cases h : k = addr
    · subst h
      rw [if_neg (by omega), if_pos rfl, if_pos (by omega)]
      simp
    · by_cases h2 : addr + 1 ≤ k ∧ k < addr + 1 + bs.length
      · obtain ⟨j, hj⟩ : ∃ j, k - addr = j + 1 := ⟨k - addr - 1, by omega⟩
        rw [if_pos h2, if_pos (by omega), hj, List.getElem?_cons_succ]
        congr 1
        omega
      · rw [if_neg h2, if_neg h, if_neg (by omega)]

theorem Mem.stored_writeBytes (m : Mem) (addr : Nat) (bs : Bytes) :
    m.Stored addr bs (m.writeBytes addr bs) := fun k => Mem.read_writeBytes m addr bs k

theorem Mem.keys_write {m : Mem} {a : Nat} {b : Byte} {c : Host.Cell} (h : c ∈ m.write a b) :
    c.1 = a ∨ c ∈ m := by
  induction m with
  | nil => simp_all [Mem.write]
  | cons x rest ih =>
    obtain ⟨k, v⟩ := x
    simp only [Mem.write] at h
    split at h
    · simp only [List.mem_cons] at h ⊢
      rcases h with rfl | h | h <;> simp_all
    · split at h
      · simp only [List.mem_cons] at h ⊢
        rcases h with rfl | h <;> simp_all
      · simp only [List.mem_cons] at h ⊢
        rcases h with rfl | h
        · simp
        · rcases ih h with h | h <;> simp_all

theorem Mem.wf_write {m : Mem} (a : Nat) (b : Byte) (h : m.wf) : (m.write a b).wf := by
  induction m with
  | nil => simp [Mem.write, Mem.wf]
  | cons x rest ih =>
    obtain ⟨k, v⟩ := x
    obtain ⟨h1, h2⟩ := List.pairwise_cons.mp h
    simp only [Mem.write]
    split
    · refine List.pairwise_cons.mpr ⟨fun c hc => ?_, h⟩
      rcases List.mem_cons.mp hc with rfl | hc
      · assumption
      · exact lt_trans ‹_› (h1 c hc)
    · split
      · subst_vars; exact List.pairwise_cons.mpr ⟨h1, h2⟩
      · refine List.pairwise_cons.mpr ⟨fun c hc => ?_, ih h2⟩
        rcases Mem.keys_write hc with hc | hc
        · show k < c.1; omega
        · exact h1 c hc

theorem Mem.wf_writeBytes {m : Mem} (addr : Nat) (bs : Bytes) (h : m.wf) : (m.writeBytes addr bs).wf := by
  induction bs generalizing m addr with
  | nil => exact h
  | cons b bs ih => exact ih _ (Mem.wf_write addr b h)

theorem Mem.keys_writeBytes {m : Mem} {addr : Nat} {bs : Bytes} {c : Host.Cell}
    (h : c ∈ m.writeBytes addr bs) : (addr ≤ c.1 ∧ c.1 < addr + bs.length) ∨ c ∈ m := by
  induction bs generalizing m addr with
  | nil => exact .inr h
  | cons b bs ih =>
    rcases ih h with h | h
    · left; simp only [List.length_cons]; omega
    · rcases Mem.keys_write h with h | h
      · left; simp only [List.length_cons]; omega
      · exact .inr h

/-- What a read of `n` bytes that succeeds says of the buffer. -/
theorem Mem.readBytes_ok {m : Mem} {addr n : Nat} {bs : Bytes} (h : m.readBytes addr n = .ok bs) :
    bs.length = n ∧ ∀ k, k < n → m.read (addr + k) = bs[k]? := by
  induction n generalizing addr bs with
  | zero => simp only [Mem.readBytes, Except.ok.injEq] at h; subst h; simp
  | succ n ih =>
    simp only [Mem.readBytes] at h
    split at h
    · cases h
    · cases h
    · rename_i b rest hb hr
      cases h
      obtain ⟨h1, h2⟩ := ih hr
      refine ⟨by simp [h1], fun k hk => ?_⟩
      cases k with
      | zero => simpa using hb
      | succ k => simpa [Nat.add_assoc, Nat.add_comm 1 k] using h2 k (by omega)

/-- What a read of `n` bytes that fails says of the buffer: the least address without a value. -/
theorem Mem.readBytes_error {m : Mem} {addr n a : Nat} (h : m.readBytes addr n = .error a) :
    addr ≤ a ∧ a < addr + n ∧ m.read a = none ∧ ∀ k, addr ≤ k → k < a → m.read k ≠ none := by
  induction n generalizing addr with
  | zero => simp [Mem.readBytes] at h
  | succ n ih =>
    simp only [Mem.readBytes] at h
    split at h
    · rename_i hb
      cases h
      exact ⟨le_refl _, by omega, hb, fun k h1 h2 => by omega⟩
    · rename_i b e hb hr
      cases h
      obtain ⟨h1, h2, h3, h4⟩ := ih hr
      refine ⟨by omega, by omega, h3, fun k hk hk2 => ?_⟩
      rcases Nat.eq_or_lt_of_le hk with rfl | hk
      · simp [hb]
      · exact h4 k (by omega) hk2
    · cases h

/-- A buffer that holds `bs` from `addr` on reads back as `bs`. -/
theorem Mem.readBytes_of_read {m : Mem} {addr n : Nat} {bs : Bytes} (hl : bs.length = n)
    (h : ∀ k, k < n → m.read (addr + k) = bs[k]?) : m.readBytes addr n = .ok bs := by
  induction n generalizing addr bs with
  | zero => simp [Mem.readBytes, List.length_eq_zero_iff.mp hl]
  | succ n ih =>
    match bs, hl with
    | b :: rest, hl =>
      have h0 := h 0 (by omega)
      have hr := ih (addr := addr + 1) (bs := rest) (by simpa using hl) (fun k hk => by
        simpa [Nat.add_assoc, Nat.add_comm 1 k] using h (k + 1) (by omega))
      simp only [Nat.add_zero, List.getElem?_cons_zero] at h0
      simp [Mem.readBytes, h0, hr]

end Sys2Proof.Machine
end

