-- ==== Sys2Proof/Laws/State.lean ====
section
/-! SUPPORT. One lemma per field for each named update of the state: `setOut`, `finish`, `raise`,
`reinit`. -/

namespace Sys2Proof.Machine


/-! ## `OUT <- f` -/

@[simp] theorem State.setOut_cmd (s : State) (f : Bytes) :
    (s.setOut f).cmd = s.cmd := rfl
@[simp] theorem State.setOut_status (s : State) (f : Bytes) :
    (s.setOut f).status = s.status := rfl
@[simp] theorem State.setOut_errlog (s : State) (f : Bytes) :
    (s.setOut f).errlog = s.errlog := rfl
@[simp] theorem State.setOut_cfg (s : State) (f : Bytes) :
    (s.setOut f).cfg = s.cfg := rfl
@[simp] theorem State.setOut_txtype (s : State) (f : Bytes) :
    (s.setOut f).txtype = s.txtype := rfl
@[simp] theorem State.setOut_txfid (s : State) (f : Bytes) :
    (s.setOut f).txfid = s.txfid := rfl
@[simp] theorem State.setOut_txrsvd (s : State) (f : Bytes) :
    (s.setOut f).txrsvd = s.txrsvd := rfl
@[simp] theorem State.setOut_addr (s : State) (f : Bytes) :
    (s.setOut f).addr = s.addr := rfl
@[simp] theorem State.setOut_bdest (s : State) (f : Bytes) :
    (s.setOut f).bdest = s.bdest := rfl
@[simp] theorem State.setOut_bsrc (s : State) (f : Bytes) :
    (s.setOut f).bsrc = s.bsrc := rfl
@[simp] theorem State.setOut_bcmd (s : State) (f : Bytes) :
    (s.setOut f).bcmd = s.bcmd := rfl
@[simp] theorem State.setOut_boff (s : State) (f : Bytes) :
    (s.setOut f).boff = s.boff := rfl
@[simp] theorem State.setOut_breq (s : State) (f : Bytes) :
    (s.setOut f).breq = s.breq := rfl
@[simp] theorem State.setOut_ilen (s : State) (f : Bytes) :
    (s.setOut f).ilen = s.ilen := rfl
@[simp] theorem State.setOut_olen (s : State) (f : Bytes) :
    (s.setOut f).olen = BitVec.ofNat 16 f.length := rfl
@[simp] theorem State.setOut_rlen (s : State) (f : Bytes) :
    (s.setOut f).rlen = s.rlen := rfl
@[simp] theorem State.setOut_rtype (s : State) (f : Bytes) :
    (s.setOut f).rtype = s.rtype := rfl
@[simp] theorem State.setOut_rfid (s : State) (f : Bytes) :
    (s.setOut f).rfid = s.rfid := rfl
@[simp] theorem State.setOut_rsum (s : State) (f : Bytes) :
    (s.setOut f).rsum = s.rsum := rfl
@[simp] theorem State.setOut_rpos (s : State) (f : Bytes) :
    (s.setOut f).rpos = s.rpos := rfl
@[simp] theorem State.setOut_rcrc (s : State) (f : Bytes) :
    (s.setOut f).rcrc = s.rcrc := rfl
@[simp] theorem State.setOut_blen (s : State) (f : Bytes) :
    (s.setOut f).blen = s.blen := rfl
@[simp] theorem State.setOut_ddest (s : State) (f : Bytes) :
    (s.setOut f).ddest = s.ddest := rfl
@[simp] theorem State.setOut_dsrc (s : State) (f : Bytes) :
    (s.setOut f).dsrc = s.dsrc := rfl
@[simp] theorem State.setOut_dcmd (s : State) (f : Bytes) :
    (s.setOut f).dcmd = s.dcmd := rfl
@[simp] theorem State.setOut_doff (s : State) (f : Bytes) :
    (s.setOut f).doff = s.doff := rfl
@[simp] theorem State.setOut_dcrc (s : State) (f : Bytes) :
    (s.setOut f).dcrc = s.dcrc := rfl
@[simp] theorem State.setOut_fcnt (s : State) (f : Bytes) :
    (s.setOut f).fcnt = s.fcnt := rfl
@[simp] theorem State.setOut_ibuf (s : State) (f : Bytes) :
    (s.setOut f).ibuf = s.ibuf := rfl
@[simp] theorem State.setOut_obuf (s : State) (f : Bytes) :
    (s.setOut f).obuf = s.obuf.writeBytes 0 f := rfl
@[simp] theorem State.setOut_fq (s : State) (f : Bytes) :
    (s.setOut f).fq = s.fq := rfl
@[simp] theorem State.setOut_params (s : State) (f : Bytes) :
    (s.setOut f).params = s.params := rfl
@[simp] theorem State.setOut_pending (s : State) (f : Bytes) :
    (s.setOut f).pending = s.pending := rfl
@[simp] theorem State.setOut_answer (s : State) (f : Bytes) :
    (s.setOut f).answer = s.answer := rfl
@[simp] theorem State.setOut_fresh (s : State) (f : Bytes) :
    (s.setOut f).fresh = s.fresh := rfl
@[simp] theorem State.setOut_epoch (s : State) (f : Bytes) :
    (s.setOut f).epoch = s.epoch := rfl

/-! ## The end of a command without an error -/

@[simp] theorem State.finish_cmd (s : State) (ck crc : Bool) :
    (s.finish ck crc).cmd = s.cmd := rfl
@[simp] theorem State.finish_status (s : State) (ck crc : Bool) :
    (s.finish ck crc).status = statusByte 0 ck crc (fqNonEmpty s) := rfl
@[simp] theorem State.finish_errlog (s : State) (ck crc : Bool) :
    (s.finish ck crc).errlog = s.errlog := rfl
@[simp] theorem State.finish_cfg (s : State) (ck crc : Bool) :
    (s.finish ck crc).cfg = s.cfg := rfl
@[simp] theorem State.finish_txtype (s : State) (ck crc : Bool) :
    (s.finish ck crc).txtype = s.txtype := rfl
@[simp] theorem State.finish_txfid (s : State) (ck crc : Bool) :
    (s.finish ck crc).txfid = s.txfid := rfl
@[simp] theorem State.finish_txrsvd (s : State) (ck crc : Bool) :
    (s.finish ck crc).txrsvd = s.txrsvd := rfl
@[simp] theorem State.finish_addr (s : State) (ck crc : Bool) :
    (s.finish ck crc).addr = s.addr := rfl
@[simp] theorem State.finish_bdest (s : State) (ck crc : Bool) :
    (s.finish ck crc).bdest = s.bdest := rfl
@[simp] theorem State.finish_bsrc (s : State) (ck crc : Bool) :
    (s.finish ck crc).bsrc = s.bsrc := rfl
@[simp] theorem State.finish_bcmd (s : State) (ck crc : Bool) :
    (s.finish ck crc).bcmd = s.bcmd := rfl
@[simp] theorem State.finish_boff (s : State) (ck crc : Bool) :
    (s.finish ck crc).boff = s.boff := rfl
@[simp] theorem State.finish_breq (s : State) (ck crc : Bool) :
    (s.finish ck crc).breq = s.breq := rfl
@[simp] theorem State.finish_ilen (s : State) (ck crc : Bool) :
    (s.finish ck crc).ilen = s.ilen := rfl
@[simp] theorem State.finish_olen (s : State) (ck crc : Bool) :
    (s.finish ck crc).olen = s.olen := rfl
@[simp] theorem State.finish_rlen (s : State) (ck crc : Bool) :
    (s.finish ck crc).rlen = s.rlen := rfl
@[simp] theorem State.finish_rtype (s : State) (ck crc : Bool) :
    (s.finish ck crc).rtype = s.rtype := rfl
@[simp] theorem State.finish_rfid (s : State) (ck crc : Bool) :
    (s.finish ck crc).rfid = s.rfid := rfl
@[simp] theorem State.finish_rsum (s : State) (ck crc : Bool) :
    (s.finish ck crc).rsum = s.rsum := rfl
@[simp] theorem State.finish_rpos (s : State) (ck crc : Bool) :
    (s.finish ck crc).rpos = s.rpos := rfl
@[simp] theorem State.finish_rcrc (s : State) (ck crc : Bool) :
    (s.finish ck crc).rcrc = s.rcrc := rfl
@[simp] theorem State.finish_blen (s : State) (ck crc : Bool) :
    (s.finish ck crc).blen = s.blen := rfl
@[simp] theorem State.finish_ddest (s : State) (ck crc : Bool) :
    (s.finish ck crc).ddest = s.ddest := rfl
@[simp] theorem State.finish_dsrc (s : State) (ck crc : Bool) :
    (s.finish ck crc).dsrc = s.dsrc := rfl
@[simp] theorem State.finish_dcmd (s : State) (ck crc : Bool) :
    (s.finish ck crc).dcmd = s.dcmd := rfl
@[simp] theorem State.finish_doff (s : State) (ck crc : Bool) :
    (s.finish ck crc).doff = s.doff := rfl
@[simp] theorem State.finish_dcrc (s : State) (ck crc : Bool) :
    (s.finish ck crc).dcrc = s.dcrc := rfl
@[simp] theorem State.finish_fcnt (s : State) (ck crc : Bool) :
    (s.finish ck crc).fcnt = s.fcnt := rfl
@[simp] theorem State.finish_ibuf (s : State) (ck crc : Bool) :
    (s.finish ck crc).ibuf = s.ibuf := rfl
@[simp] theorem State.finish_obuf (s : State) (ck crc : Bool) :
    (s.finish ck crc).obuf = s.obuf := rfl
@[simp] theorem State.finish_fq (s : State) (ck crc : Bool) :
    (s.finish ck crc).fq = s.fq := rfl
@[simp] theorem State.finish_params (s : State) (ck crc : Bool) :
    (s.finish ck crc).params = s.params := rfl
@[simp] theorem State.finish_pending (s : State) (ck crc : Bool) :
    (s.finish ck crc).pending = s.pending := rfl
@[simp] theorem State.finish_answer (s : State) (ck crc : Bool) :
    (s.finish ck crc).answer = s.answer := rfl
@[simp] theorem State.finish_fresh (s : State) (ck crc : Bool) :
    (s.finish ck crc).fresh = s.fresh := rfl
@[simp] theorem State.finish_epoch (s : State) (ck crc : Bool) :
    (s.finish ck crc).epoch = s.epoch := rfl

/-! ## `raise e` -/

@[simp] theorem State.raise_cmd (s : State) (e : Err) :
    (s.raise e).cmd = s.cmd := rfl
@[simp] theorem State.raise_status (s : State) (e : Err) :
    (s.raise e).status = statusByte e.code false false (fqNonEmpty s) := rfl
@[simp] theorem State.raise_errlog (s : State) (e : Err) :
    (s.raise e).errlog = s.errlog ||| e.logBit := rfl
@[simp] theorem State.raise_cfg (s : State) (e : Err) :
    (s.raise e).cfg = s.cfg := rfl
@[simp] theorem State.raise_txtype (s : State) (e : Err) :
    (s.raise e).txtype = s.txtype := rfl
@[simp] theorem State.raise_txfid (s : State) (e : Err) :
    (s.raise e).txfid = s.txfid := rfl
@[simp] theorem State.raise_txrsvd (s : State) (e : Err) :
    (s.raise e).txrsvd = s.txrsvd := rfl
@[simp] theorem State.raise_addr (s : State) (e : Err) :
    (s.raise e).addr = s.addr := rfl
@[simp] theorem State.raise_bdest (s : State) (e : Err) :
    (s.raise e).bdest = s.bdest := rfl
@[simp] theorem State.raise_bsrc (s : State) (e : Err) :
    (s.raise e).bsrc = s.bsrc := rfl
@[simp] theorem State.raise_bcmd (s : State) (e : Err) :
    (s.raise e).bcmd = s.bcmd := rfl
@[simp] theorem State.raise_boff (s : State) (e : Err) :
    (s.raise e).boff = s.boff := rfl
@[simp] theorem State.raise_breq (s : State) (e : Err) :
    (s.raise e).breq = s.breq := rfl
@[simp] theorem State.raise_ilen (s : State) (e : Err) :
    (s.raise e).ilen = s.ilen := rfl
@[simp] theorem State.raise_olen (s : State) (e : Err) :
    (s.raise e).olen = s.olen := rfl
@[simp] theorem State.raise_rlen (s : State) (e : Err) :
    (s.raise e).rlen = s.rlen := rfl
@[simp] theorem State.raise_rtype (s : State) (e : Err) :
    (s.raise e).rtype = s.rtype := rfl
@[simp] theorem State.raise_rfid (s : State) (e : Err) :
    (s.raise e).rfid = s.rfid := rfl
@[simp] theorem State.raise_rsum (s : State) (e : Err) :
    (s.raise e).rsum = s.rsum := rfl
@[simp] theorem State.raise_rpos (s : State) (e : Err) :
    (s.raise e).rpos = s.rpos := rfl
@[simp] theorem State.raise_rcrc (s : State) (e : Err) :
    (s.raise e).rcrc = s.rcrc := rfl
@[simp] theorem State.raise_blen (s : State) (e : Err) :
    (s.raise e).blen = s.blen := rfl
@[simp] theorem State.raise_ddest (s : State) (e : Err) :
    (s.raise e).ddest = s.ddest := rfl
@[simp] theorem State.raise_dsrc (s : State) (e : Err) :
    (s.raise e).dsrc = s.dsrc := rfl
@[simp] theorem State.raise_dcmd (s : State) (e : Err) :
    (s.raise e).dcmd = s.dcmd := rfl
@[simp] theorem State.raise_doff (s : State) (e : Err) :
    (s.raise e).doff = s.doff := rfl
@[simp] theorem State.raise_dcrc (s : State) (e : Err) :
    (s.raise e).dcrc = s.dcrc := rfl
@[simp] theorem State.raise_fcnt (s : State) (e : Err) :
    (s.raise e).fcnt = s.fcnt := rfl
@[simp] theorem State.raise_ibuf (s : State) (e : Err) :
    (s.raise e).ibuf = s.ibuf := rfl
@[simp] theorem State.raise_obuf (s : State) (e : Err) :
    (s.raise e).obuf = s.obuf := rfl
@[simp] theorem State.raise_fq (s : State) (e : Err) :
    (s.raise e).fq = s.fq := rfl
@[simp] theorem State.raise_params (s : State) (e : Err) :
    (s.raise e).params = s.params := rfl
@[simp] theorem State.raise_pending (s : State) (e : Err) :
    (s.raise e).pending = s.pending := rfl
@[simp] theorem State.raise_answer (s : State) (e : Err) :
    (s.raise e).answer = s.answer := rfl
@[simp] theorem State.raise_fresh (s : State) (e : Err) :
    (s.raise e).fresh = s.fresh := rfl
@[simp] theorem State.raise_epoch (s : State) (e : Err) :
    (s.raise e).epoch = s.epoch := rfl

/-! ## Reset -/

@[simp] theorem State.reinit_cmd (s : State) (c : Byte) :
    (s.reinit c).cmd = c := rfl
@[simp] theorem State.reinit_status (s : State) (c : Byte) :
    (s.reinit c).status = 0 := rfl
@[simp] theorem State.reinit_errlog (s : State) (c : Byte) :
    (s.reinit c).errlog = 0 := rfl
@[simp] theorem State.reinit_cfg (s : State) (c : Byte) :
    (s.reinit c).cfg = 0 := rfl
@[simp] theorem State.reinit_txtype (s : State) (c : Byte) :
    (s.reinit c).txtype = s.params.txType := rfl
@[simp] theorem State.reinit_txfid (s : State) (c : Byte) :
    (s.reinit c).txfid = s.params.txFrameId := rfl
@[simp] theorem State.reinit_txrsvd (s : State) (c : Byte) :
    (s.reinit c).txrsvd = s.params.txReserved := rfl
@[simp] theorem State.reinit_addr (s : State) (c : Byte) :
    (s.reinit c).addr = 0 := rfl
@[simp] theorem State.reinit_bdest (s : State) (c : Byte) :
    (s.reinit c).bdest = s.params.busDest := rfl
@[simp] theorem State.reinit_bsrc (s : State) (c : Byte) :
    (s.reinit c).bsrc = s.params.busSrc := rfl
@[simp] theorem State.reinit_bcmd (s : State) (c : Byte) :
    (s.reinit c).bcmd = 0 := rfl
@[simp] theorem State.reinit_boff (s : State) (c : Byte) :
    (s.reinit c).boff = 0 := rfl
@[simp] theorem State.reinit_breq (s : State) (c : Byte) :
    (s.reinit c).breq = 0x0C := rfl
@[simp] theorem State.reinit_ilen (s : State) (c : Byte) :
    (s.reinit c).ilen = 0 := rfl
@[simp] theorem State.reinit_olen (s : State) (c : Byte) :
    (s.reinit c).olen = 0 := rfl
@[simp] theorem State.reinit_rlen (s : State) (c : Byte) :
    (s.reinit c).rlen = 0 := rfl
@[simp] theorem State.reinit_rtype (s : State) (c : Byte) :
    (s.reinit c).rtype = 0 := rfl
@[simp] theorem State.reinit_rfid (s : State) (c : Byte) :
    (s.reinit c).rfid = 0 := rfl
@[simp] theorem State.reinit_rsum (s : State) (c : Byte) :
    (s.reinit c).rsum = 0 := rfl
@[simp] theorem State.reinit_rpos (s : State) (c : Byte) :
    (s.reinit c).rpos = 0 := rfl
@[simp] theorem State.reinit_rcrc (s : State) (c : Byte) :
    (s.reinit c).rcrc = 0 := rfl
@[simp] theorem State.reinit_blen (s : State) (c : Byte) :
    (s.reinit c).blen = 0 := rfl
@[simp] theorem State.reinit_ddest (s : State) (c : Byte) :
    (s.reinit c).ddest = 0 := rfl
@[simp] theorem State.reinit_dsrc (s : State) (c : Byte) :
    (s.reinit c).dsrc = 0 := rfl
@[simp] theorem State.reinit_dcmd (s : State) (c : Byte) :
    (s.reinit c).dcmd = 0 := rfl
@[simp] theorem State.reinit_doff (s : State) (c : Byte) :
    (s.reinit c).doff = 0 := rfl
@[simp] theorem State.reinit_dcrc (s : State) (c : Byte) :
    (s.reinit c).dcrc = 0 := rfl
@[simp] theorem State.reinit_fcnt (s : State) (c : Byte) :
    (s.reinit c).fcnt = 0 := rfl
@[simp] theorem State.reinit_ibuf (s : State) (c : Byte) :
    (s.reinit c).ibuf = [] := rfl
@[simp] theorem State.reinit_obuf (s : State) (c : Byte) :
    (s.reinit c).obuf = [] := rfl
@[simp] theorem State.reinit_fq (s : State) (c : Byte) :
    (s.reinit c).fq = [] := rfl
@[simp] theorem State.reinit_params (s : State) (c : Byte) :
    (s.reinit c).params = s.params := rfl
@[simp] theorem State.reinit_pending (s : State) (c : Byte) :
    (s.reinit c).pending = s.pending := rfl
@[simp] theorem State.reinit_answer (s : State) (c : Byte) :
    (s.reinit c).answer = s.answer := rfl
@[simp] theorem State.reinit_fresh (s : State) (c : Byte) :
    (s.reinit c).fresh = s.fresh := rfl
@[simp] theorem State.reinit_epoch (s : State) (c : Byte) :
    (s.reinit c).epoch = s.epoch + 1 := rfl

end Sys2Proof.Machine
end

