-- ==== Sys2Proof/Laws/Ops.lean ====
section
/-! SUPPORT. Once for each shared operation, all it can do: reading IN, writing OUT, the end of a command,
`raise`. -/

namespace Sys2Proof.Machine

/-! ## IN -/

theorem inBytes_of_inIs {s : State} {b : Bytes} (h : s.InIs b) : inBytes s = .ok b :=
  Mem.readBytes_of_read h.1 (fun k hk => by simpa using h.2 k (by have := h.1; omega))

theorem inIs_of_inBytes {s : State} {b : Bytes} (h : inBytes s = .ok b) : s.InIs b := by
  obtain ⟨h1, h2⟩ := Mem.readBytes_ok h
  exact ⟨h1, fun k hk => by simpa using h2 k (by omega)⟩

theorem withIn_of_inIs {s : State} {b : Bytes} (h : s.InIs b) (k : Bytes → Result) : withIn s k = k b := by
  simp [withIn, inBytes_of_inIs h]

/-- A command that reads IN goes on with IN, or faults at the least address never written. -/
theorem withIn_cases (s : State) (k : Bytes → Result) :
    (∃ b, s.InIs b ∧ withIn s k = k b) ∨
    ∃ a, withIn s k = .fault (.uninitialisedInput a) ∧ a < s.ilen.toNat ∧ s.ibuf.read a = none ∧
      ∀ j, j < a → s.ibuf.read j ≠ none := by
  cases h : inBytes s with
  | ok b => exact .inl ⟨b, inIs_of_inBytes h, by simp [withIn, h]⟩
  | error a =>
    obtain ⟨_, h2, h3, h4⟩ := Mem.readBytes_error h
    exact .inr ⟨a, by simp [withIn, h], by omega, h3, fun j hj => h4 j (Nat.zero_le _) hj⟩

theorem not_inIs_of_inUnwritten {s : State} (h : s.InUnwritten) (b : Bytes) : ¬s.InIs b := by
  rintro ⟨h1, h2⟩
  obtain ⟨a, ha, hn⟩ := h
  have := h2 a (by omega)
  rw [hn, List.getElem?_eq_getElem (by omega)] at this
  cases this

/-- If a command that reads IN answers a next state, IN was written and the command's rest answered it. -/
theorem next_of_withIn {s t : State} {k : Bytes → Result} (h : withIn s k = .next t) :
    ∃ b, s.InIs b ∧ k b = .next t := by
  rcases withIn_cases s k with ⟨b, hb, he⟩ | ⟨a, he, _⟩
  · exact ⟨b, hb, he ▸ h⟩
  · rw [he] at h; cases h

/-! ## OUT -/

theorem wrote_setOut (s : State) (f : Bytes) : s.Wrote f (s.setOut f) :=
  ⟨Mem.stored_writeBytes _ _ _, rfl⟩

theorem Mem.Stored.holds {m m' : Mem} {bs : Bytes} (h : m.Stored 0 bs m') : m'.Holds bs := fun a ha => by
  rw [h a, if_pos ⟨Nat.zero_le _, by omega⟩, Nat.sub_zero]

theorem State.Wrote.outIs {s t : State} {f : Bytes} (h : s.Wrote f t) (hl : f.length < 65536) : t.OutIs f :=
  ⟨by rw [h.2, BitVec.toNat_ofNat, Nat.mod_eq_of_lt (by omega)], h.1.holds⟩

theorem outRead_of_outIs {s : State} {f : Bytes} (h : s.OutIs f) : outRead s 0 s.olen.toNat = f := by
  apply List.ext_getElem?
  intro i
  simp only [outRead, List.getElem?_map]
  by_cases hi : i < s.olen.toNat
  · have hf : i < f.length := by have := h.1; omega
    have := h.2 i hf
    simp [hi, outByte, this, List.getElem?_eq_getElem hf]
  · simp [hi, List.getElem?_eq_none (show f.length ≤ i by have := h.1; omega)]

theorem inIs_of_stored {s : State} {m : Mem} {f : Bytes} {l : Half} (h : s.ibuf.Stored 0 f m)
    (hl : f.length = l.toNat) : { s with ibuf := m, ilen := l }.InIs f := ⟨hl, h.holds⟩

/-! ## The end of a command -/

theorem fqNonEmpty_eq (s : State) : fqNonEmpty s = decide (s.fcnt ≠ 0) := by
  simp only [fqNonEmpty, decide_eq_decide, ne_eq, ← BitVec.toNat_inj, BitVec.ofNat_eq_ofNat, BitVec.toNat_ofNat]
  omega

theorem statusByte_zero (ck crc fq : Bool) : statusByte 0 ck crc fq = specStatus 0 ck crc fq := by
  revert ck crc fq; decide

theorem statusByte_code (e : Err) (fq : Bool) :
    statusByte e.code false false fq = specStatus e.code.toNat false false fq := by
  revert fq; cases e <;> decide

theorem logBit_eq (e : Err) : e.logBit = BitVec.ofNat 16 (2 ^ e.code.toNat) := by
  cases e <;> decide

theorem finish_eq (s : State) (ck crc : Bool) :
    s.finish ck crc = { s with status := specEnd 0 ck crc s.fcnt } := by
  simp only [State.finish, statusByte_zero, fqNonEmpty_eq, specEnd]

theorem raise_eq (s : State) (e : Err) : s.raise e = s.failed e.code.toNat := by
  simp only [State.raise, statusByte_code, fqNonEmpty_eq, State.failed, specEnd, logBit_eq]

end Sys2Proof.Machine
end

