-- ==== Sys2Proof/Laws/Wire.lean ====
section
/-! SUPPORT. The functions of the wire formats against the spec's tables, and the laws of `locate` and
`split`. -/

namespace Sys2Proof.Machine

/-! ## Checksum, address, frames -/

theorem outerChecksum_eq (s : Bytes) : outerChecksum s = specSum s := rfl

/-- A byte of a wider value is the value shifted down and cut to 8 bits. -/
theorem extractLsb'_eq_shift {w : Nat} (v : BitVec w) (k : Nat) :
    v.extractLsb' k 8 = (v >>> k).setWidth 8 := by
  apply BitVec.eq_of_toNat_eq; simp

theorem addrBytes_eq (a : DWord) : addrBytes a = specAddr a := by
  simp only [addrBytes, extractLsb'_eq_shift]; rfl

@[simp] theorem specAddr_length (a : DWord) : (specAddr a).length = 8 := by simp [specAddr]

theorem addressed_eq (t f : Byte) (a : DWord) (r : Byte) (p : Bytes) (h : p.length + 11 ≤ 65535) :
    addressed t f (addrBytes a) r p = specFrame t f (specAddr a) r p := by
  have h1 : hi8 (BitVec.ofNat 16 (p.length + 11)) = BitVec.ofNat 8 ((p.length + 11) / 256) := by
    apply BitVec.eq_of_toNat_eq
    simp [hi8, Nat.shiftRight_eq_div_pow, Nat.mod_eq_of_lt (show p.length + 11 < 65536 by omega)]
  have h2 : lo8 (BitVec.ofNat 16 (p.length + 11)) = BitVec.ofNat 8 (p.length + 11) := by
    apply BitVec.eq_of_toNat_eq
    simp [lo8]
  simp only [addressed, uniOverhead, h1, h2, addrBytes_eq, specFrame, start, outerChecksum_eq,
    List.cons_append, List.nil_append, List.append_assoc]

theorem specFrame_length (t f : Byte) (a : DWord) (r : Byte) (p : Bytes) :
    (specFrame t f (specAddr a) r p).length = p.length + 15 := by
  simp [specFrame]; omega

/-- The checksum byte of the addressed shape stands at offset `n + 14`. -/
theorem byteAt_specFrame (t f : Byte) (a : DWord) (r : Byte) (p : Bytes) :
    byteAt (specFrame t f (specAddr a) r p) (p.length + 14) = specSum ([t, f] ++ specAddr a ++ [r] ++ p) := by
  have : p.length + 14 = ([0x7E, BitVec.ofNat 8 ((p.length + 11) / 256), BitVec.ofNat 8 (p.length + 11), t, f]
      ++ specAddr a ++ [r] ++ p).length := by simp; omega
  rw [byteAt, specFrame, this, List.getD_eq_getElem?_getD, List.getElem?_concat_length, Option.getD_some]

theorem escape_eq (p : Params) (f : Bytes) : escape p f = specEscape p f := by
  cases f with
  | nil => rfl
  | cons b rest =>
    simp only [escape, specEscape, List.take_succ_cons, List.take_zero, List.drop_succ_cons, List.drop_zero,
      List.cons_append, List.nil_append, List.cons.injEq, true_and]
    congr 1
    funext x
    simp [escapeByte, escSet]

theorem transmitForm_eq (s : State) (f : Bytes) : transmitForm s f = specSent s f := by
  simp only [transmitForm, specSent, cfgEsc, escape_eq]

/-- No byte of the discovery frame after the first is escaped (R153). -/
theorem specSent_discFrame (s : State) : specSent s discFrame = discFrame := by
  unfold specSent
  split <;> rfl

/-! ## The inner CRC and the inner message -/

/-- `crcFrom` at index `i` over `m` is a fold over the indices that are fed. -/
theorem crcFrom_eq (u : CrcUnit) (m : Bytes) (i : Nat) (crc : Half) :
    crcFrom u i crc m = ((List.range m.length).filter (fun k => i + k != 3 && i + k != 4)).foldl
      (fun c k => crcUpdate u c (m.getD k 0)) crc := by
  induction m generalizing i crc with
  | nil => rfl
  | cons b rest ih =>
    rw [crcFrom, ih, List.length_cons, List.range_succ_eq_map, List.filter_cons, List.filter_map]
    have hf : (List.range rest.length).filter (fun k => i + 1 + k != 3 && i + 1 + k != 4) =
        (List.range rest.length).filter ((fun k => i + k != 3 && i + k != 4) ∘ Nat.succ) := by
      congr 1; funext k; simp only [Function.comp, Nat.succ_eq_add_one]; congr 2 <;> omega
    rw [hf]
    by_cases h : i = 3 ∨ i = 4
    · have : (i + 0 != 3 && i + 0 != 4) = false := by rcases h with rfl | rfl <;> rfl
      rw [this, if_pos h, if_neg Bool.false_ne_true]
      simp [List.foldl_map]
    · have h3 : (i + 0 != 3 && i + 0 != 4) = true := by simp; omega
      rw [h3, if_neg h, if_pos rfl]
      simp [List.foldl_map]

theorem innerCrc16_eq (p : Params) (m : Bytes) (h : (byteAt m 2).toNat ≤ m.length) :
    innerCrc16 p m = specCrc p m (byteAt m 2).toNat := by
  rw [innerCrc16, crcFrom_eq, specCrc, List.length_take, Nat.min_eq_left h]
  simp only [Nat.zero_add]
  refine List.foldl_ext _ _ _ fun c k hk => ?_
  have : k < (byteAt m 2).toNat := by simpa using (List.mem_filter.mp hk).1
  simp [List.getD_eq_getElem?_getD, this]
/-- The CRC depends on the bytes that are fed and on nothing else (40_checksum.md R143). -/
theorem specCrc_congr (p : Params) {m m' : Bytes} {n : Nat}
    (h : ∀ k, k < n → k ≠ 3 → k ≠ 4 → m.getD k 0 = m'.getD k 0) : specCrc p m n = specCrc p m' n := by
  refine List.foldl_ext _ _ _ fun c k hk => ?_
  obtain ⟨h1, h2⟩ := List.mem_filter.mp hk
  simp only [Bool.and_eq_true, bne_iff_ne, ne_eq] at h2
  rw [h k (List.mem_range.mp h1) h2.1 h2.2]

/-- The CRC of a message does not depend on the two bytes of its CRC field. -/
theorem specCrc_crcField (p : Params) (a b c x y x' y' : Byte) (rest : Bytes) (n : Nat) :
    specCrc p (a :: b :: c :: x :: y :: rest) n = specCrc p (a :: b :: c :: x' :: y' :: rest) n := by
  refine specCrc_congr p fun k _ h3 h4 => ?_
  match k, h3, h4 with
  | 0, _, _ | 1, _, _ | 2, _, _ => rfl
  | 3, h, _ => exact absurd rfl h
  | 4, _, h => exact absurd rfl h
  | k + 5, _, _ => rfl

theorem hi8_eq (v : Half) : hi8 v = (v >>> 8).setWidth 8 := extractLsb'_eq_shift v 8

theorem lo8_eq (v : Half) : lo8 v = v.setWidth 8 := by
  rw [lo8, extractLsb'_eq_shift]; simp

theorem lsbFirst_eq (a b : Byte) : lsbFirst a b = BitVec.ofNat 16 (a.toNat + 256 * b.toNat) := by
  apply BitVec.eq_of_toNat_eq
  have ha := a.isLt
  have hb := b.isLt
  rw [lsbFirst, BitVec.toNat_append, BitVec.toNat_ofNat, Nat.mod_eq_of_lt (by omega), Nat.shiftLeft_eq,
    Nat.mul_comm, ← Nat.two_pow_add_eq_or_of_lt ha]
  omega

/-- A 16-bit field split least significant byte first and put together again. -/
theorem lsbFirst_split (v : Half) : lsbFirst (v.setWidth 8) ((v >>> 8).setWidth 8) = v := by
  apply BitVec.eq_of_toNat_eq
  rw [lsbFirst_eq]
  have := v.isLt
  simp [Nat.shiftRight_eq_div_pow]
  omega

/-- `InnerBuild` gives the message of the spec's table with its CRC (42_inner_bus.md R180). -/
theorem innerBuild_eq (p : Params) (d s c : Byte) (off : Half) (data : Bytes) (h : data.length ≤ 247) :
    innerBuild p d s c off data =
      (specInner d s c off (specInnerCrc p d s c off data) data, specInnerCrc p d s c off data) := by
  have hcrc : innerCrc16 p (specInnerZero d s c off data) = specInnerCrc p d s c off data := by
    have hn : (byteAt (specInnerZero d s c off data) 2).toNat = 8 + data.length := by
      simp [specInnerZero, byteAt]; omega
    rw [innerCrc16_eq _ _ (by rw [hn]; simp [specInnerZero]; omega), hn, specInnerCrc]
  have hm : [d, s, BitVec.ofNat 8 (innerHeader + data.length), 0x00, 0x00, c, lo8 off, hi8 off] ++ data =
      specInnerZero d s c off data := by
    simp only [innerHeader, lo8_eq, hi8_eq, specInnerZero]
  simp only [innerBuild, hm, hcrc, Prod.mk.injEq, and_true]
  simp [specInnerZero, specInner, lo8_eq, hi8_eq]

/-! ## Locating a frame -/

theorem findIdx?_start {pre rest : Bytes} (h : 0x7E ∉ pre) :
    (pre ++ 0x7E :: rest).findIdx? (fun x => x == start) = some pre.length := by
  induction pre with
  | nil => rfl
  | cons b pre ih =>
    simp only [List.mem_cons, not_or] at h
    rw [List.cons_append, List.findIdx?_cons, ih h.2]
    have : (b == start) = false := beq_eq_false_iff_ne.mpr fun hc => h.1 (by rw [hc]; rfl)
    simp [this]

theorem findIdx?_noStart {b : Bytes} (h : 0x7E ∉ b) : b.findIdx? (fun x => x == start) = none := by
  rw [List.findIdx?_eq_none_iff]
  intro x hx
  rw [beq_eq_false_iff_ne]
  rintro rfl
  exact h hx

theorem locate_noStart {b : Bytes} (h : 0x7E ∉ b) : locate b = .error .noStart := by
  simp [locate, findIdx?_noStart h]

theorem byteAt_append (pre l : Bytes) (k : Nat) : byteAt (pre ++ l) (pre.length + k) = byteAt l k := by
  simp [byteAt, List.getD_eq_getElem?_getD, List.getElem?_append_right]

theorem slice_append (pre l : Bytes) (k n : Nat) : slice (pre ++ l) (pre.length + k) n = slice l k n := by
  simp [slice, List.drop_append, List.drop_eq_nil_of_le (Nat.le_add_right pre.length k)]

theorem locate_short {b : Bytes} (h : ShortFrameIn b) : locate b = .error .short := by
  obtain ⟨pre, rest, rfl, hp, h⟩ := h
  simp only [locate, findIdx?_start hp]
  rcases h with h | ⟨hi, lo, r, rfl, h⟩
  · rw [if_pos (by simp; omega)]
  · rw [if_neg (by simp), byteAt_append, byteAt_append]
    simp only [byteAt, List.getD_cons_succ, List.getD_cons_zero, msbFirst]
    split
    · rfl
    · rw [if_pos]
      simp only [List.length_append, List.length_cons]
      omega

theorem locate_frame {b pre : Bytes} {hi lo : Byte} {body : Bytes} {ck : Byte} {tail : Bytes}
    (h : FrameIn b pre hi lo body ck tail) : locate b = .ok (pre.length, body.length) := by
  obtain ⟨rfl, hp, hl, h2⟩ := h
  simp only [locate, findIdx?_start hp]
  rw [if_neg (by simp), byteAt_append, byteAt_append]
  simp only [byteAt, List.getD_cons_succ, List.getD_cons_zero, msbFirst, ← hl]
  rw [if_neg (by omega), if_neg]
  simp only [List.length_append, List.length_cons]
  omega

/-- Every byte sequence has no start byte, or a short first frame, or a first frame. -/
theorem framing_cases (b : Bytes) :
    0x7E ∉ b ∨ ShortFrameIn b ∨ ∃ pre hi lo body ck tail, FrameIn b pre hi lo body ck tail := by
  by_cases h : (0x7E : Byte) ∈ b
  · obtain ⟨pre, rest, rfl, hp⟩ := List.eq_append_cons_of_mem h
    right
    match rest with
    | [] => exact .inl ⟨pre, _, rfl, hp, .inl (by simp)⟩
    | [_] => exact .inl ⟨pre, _, rfl, hp, .inl (by simp)⟩
    | hi :: lo :: r =>
      by_cases hs : 256 * hi.toNat + lo.toNat < 2 ∨ r.length < 256 * hi.toNat + lo.toNat + 1
      · exact .inl ⟨pre, _, rfl, hp, .inr ⟨hi, lo, r, rfl, hs⟩⟩
      · right
        have hlen : 256 * hi.toNat + lo.toNat < r.length := by omega
        refine ⟨pre, hi, lo, r.take (256 * hi.toNat + lo.toNat), r[256 * hi.toNat + lo.toNat],
          r.drop (256 * hi.toNat + lo.toNat + 1), ?_, hp, ?_, ?_⟩
        · rw [List.cons_getElem_drop_succ, List.take_append_drop]
        · simp; omega
        · simp; omega
  · exact .inl h

section Slices
variable {b pre : Bytes} {hi lo : Byte} {body : Bytes} {ck : Byte} {tail : Bytes}

theorem frame_body (h : FrameIn b pre hi lo body ck tail) :
    slice b (pre.length + 3) body.length = body := by
  rw [h.1, slice_append]; simp [slice]

theorem frame_checksum (h : FrameIn b pre hi lo body ck tail) :
    byteAt b (pre.length + 3 + body.length) = ck := by
  rw [h.1, Nat.add_assoc, byteAt_append, Nat.add_comm 3]
  simp [byteAt, List.getD_eq_getElem?_getD]

theorem frame_whole (h : FrameIn b pre hi lo body ck tail) :
    slice b pre.length (body.length + 4) = 0x7E :: hi :: lo :: (body ++ [ck]) := by
  have := slice_append pre (0x7E :: hi :: lo :: (body ++ ck :: tail)) 0 (body.length + 4)
  rw [h.1, ← Nat.add_zero pre.length, this]
  simp [slice, List.take_append]

theorem frame_type (h : FrameIn b pre hi lo body ck tail) : byteAt b (pre.length + 3) = body.getD 0 0 := by
  rw [h.1, byteAt_append]
  match body, h.2.2.2 with
  | _ :: _ :: _, _ => rfl

theorem frame_id (h : FrameIn b pre hi lo body ck tail) : byteAt b (pre.length + 4) = body.getD 1 0 := by
  rw [h.1, byteAt_append]
  match body, h.2.2.2 with
  | _ :: _ :: _, _ => rfl

end Slices

/-! ## The split into candidates -/

theorem splitFrom_flatten (b acc : Bytes) : (splitFrom acc b).flatten = acc ++ b := by
  induction b generalizing acc with
  | nil => unfold splitFrom; split <;> simp_all
  | cons x rest ih =>
    unfold splitFrom
    split
    · split <;> simp_all
    · simp [ih]

theorem splitFrom_nonempty (b acc : Bytes) : ∀ f ∈ splitFrom acc b, f ≠ [] := by
  induction b generalizing acc with
  | nil => unfold splitFrom; split <;> simp_all
  | cons x rest ih =>
    unfold splitFrom
    split
    · split
      · exact ih _
      · intro f hf
        rcases List.mem_cons.mp hf with rfl | hf
        · assumption
        · exact ih _ f hf
    · exact ih _

theorem splitFrom_noInnerStart (b acc : Bytes) (h : 0x7E ∉ acc.tail) :
    ∀ f ∈ splitFrom acc b, 0x7E ∉ f.tail := by
  induction b generalizing acc with
  | nil => unfold splitFrom; split <;> simp_all
  | cons x rest ih =>
    have hs : (0x7E : Byte) ∉ [start].tail := by simp
    unfold splitFrom
    split
    · split
      · exact ih _ hs
      · intro f hf
        rcases List.mem_cons.mp hf with rfl | hf
        · exact h
        · exact ih _ hs f hf
    · refine ih _ ?_
      rename_i hx
      cases acc with
      | nil => simp
      | cons a acc =>
        rw [List.cons_append, List.tail_cons, List.mem_append, List.mem_singleton, not_or]
        exact ⟨h, fun hc => hx (by rw [← hc]; rfl)⟩

theorem splitFrom_heads (b acc : Bytes) (h : acc.head? = some 0x7E) :
    ∀ f ∈ splitFrom acc b, f.head? = some 0x7E := by
  induction b generalizing acc with
  | nil => unfold splitFrom; split <;> simp_all
  | cons x rest ih =>
    unfold splitFrom
    split
    · split
      · exact ih _ rfl
      · intro f hf
        rcases List.mem_cons.mp hf with rfl | hf
        · exact h
        · exact ih _ rfl f hf
    · refine ih _ ?_
      cases acc with
      | nil => cases h
      | cons a acc => simpa using h

theorem splitFrom_tailHeads (b acc : Bytes) : ∀ f ∈ (splitFrom acc b).tail, f.head? = some 0x7E := by
  induction b generalizing acc with
  | nil => unfold splitFrom; split <;> simp
  | cons x rest ih =>
    unfold splitFrom
    split
    · split
      · exact ih _
      · exact splitFrom_heads rest [start] rfl
    · exact ih _

theorem splitFrom_length (b acc : Bytes) : (splitFrom acc b).length = b.count 0x7E +
    (if acc ≠ [] ∨ (b ≠ [] ∧ b.head? ≠ some 0x7E) then 1 else 0) := by
  induction b generalizing acc with
  | nil => unfold splitFrom; split <;> simp_all
  | cons x rest ih =>
    unfold splitFrom
    by_cases hx : x = start
    · have hx' : x = 0x7E := hx
      rw [if_pos hx]
      split
      · simp_all
      · simp_all
    · have hx' : ¬x = 0x7E := hx
      rw [if_neg hx, ih, if_pos (by simp), if_pos (.inr ⟨by simp, by simpa using hx'⟩)]
      rw [List.count_cons_of_ne (by simpa using hx')]

/-- A run of bytes without a start byte is appended to the candidate being accumulated. -/
theorem splitFrom_append (acc r rest : Bytes) (h : 0x7E ∉ r) :
    splitFrom acc (r ++ rest) = splitFrom (acc ++ r) rest := by
  induction r generalizing acc with
  | nil => simp
  | cons x r ih =>
    simp only [List.mem_cons, not_or] at h
    rw [List.cons_append, splitFrom, if_neg (fun hc => h.1 (by rw [hc]; rfl)), ih _ h.2]
    simp

theorem splitFrom_frames (frames : List Bytes) (acc : Bytes) (hacc : acc ≠ [])
    (h : ∀ f ∈ frames, f.head? = some 0x7E ∧ 0x7E ∉ f.tail) :
    splitFrom acc frames.flatten = acc :: frames := by
  induction frames generalizing acc with
  | nil => simp [splitFrom, hacc]
  | cons f frames ih =>
    obtain ⟨⟨hh, ht⟩, hr⟩ := List.forall_mem_cons.mp h
    match f, hh, ht with
    | x :: r, hh, ht =>
      obtain rfl : x = 0x7E := by simpa using hh
      rw [List.flatten_cons, List.cons_append, splitFrom, if_pos (by rfl), if_neg hacc,
        splitFrom_append _ r _ ht, ih _ (by simp) hr]
      rfl

/-- Frames that begin with a start byte and hold no other come apart as they were (R202 (e)). -/
theorem split_frames (frames : List Bytes) (h : ∀ f ∈ frames, f.head? = some 0x7E ∧ 0x7E ∉ f.tail) :
    split frames.flatten = frames := by
  match frames, h with
  | [], _ => rfl
  | f :: frames, h =>
    obtain ⟨⟨hh, ht⟩, hr⟩ := List.forall_mem_cons.mp h
    match f, hh, ht with
    | x :: r, hh, ht =>
      obtain rfl : x = 0x7E := by simpa using hh
      rw [split, List.flatten_cons, List.cons_append, splitFrom, if_pos (by rfl), if_pos rfl,
        splitFrom_append _ r _ ht, splitFrom_frames _ _ (by simp) hr]
      rfl

end Sys2Proof.Machine
end

