-- ==== Sys2Proof/Laws/Commands.lean ====
section
/-! SUPPORT. For each command whose meaning has branches, once, all that an answer of it can be: the error
it raised, or the fields it wrote before the end. -/

namespace Sys2Proof.Machine

/-- The outcome of a command that raises one of `es` or ends well in a state that `P` describes. -/
def EndsWith (s t : State) (es : List Err) (P : State → Prop) : Prop := (∃ e ∈ es, t = s.raise e) ∨ P t

theorem execOsum_next {s t : State} (h : execOsum s = .next t) :
    ∃ b, s.InIs b ∧ t = State.finish { s with rsum := outerChecksum b } false false := by
  obtain ⟨b, hb, h⟩ := next_of_withIn h
  exact ⟨b, hb, by cases h; rfl⟩

theorem execOvfy_next {s t : State} (h : execOvfy s = .next t) :
    EndsWith s t [.noStart, .short, .ochk] fun t => ∃ c l p,
      t = State.finish { s with rsum := c, rlen := l, rpos := p } true false := by
  obtain ⟨b, -, h⟩ := next_of_withIn h
  rcases framing_cases b with hf | hf | ⟨pre, hi, lo, body, ck, tail, hf⟩
  · rw [locate_noStart hf] at h; cases h; exact .inl ⟨_, by simp, rfl⟩
  · rw [locate_short hf] at h; cases h; exact .inl ⟨_, by simp, rfl⟩
  · rw [locate_frame hf] at h
    simp only at h
    split at h <;> cases h
    · exact .inl ⟨_, by simp, rfl⟩
    · exact .inr ⟨_, _, _, rfl⟩

theorem execIcrc_next {s t : State} (h : execIcrc s = .next t) :
    EndsWith s t [.short] fun t => ∃ b, s.InIs b ∧ 3 ≤ b.length ∧ (byteAt b 2).toNat ≤ b.length ∧ ∃ dc ok,
      t = State.finish { s with rcrc := innerCrc16 s.params b, blen := byteAt b 2, dcrc := dc } false ok := by
  unfold execIcrc at h
  split at h
  · cases h; exact .inl ⟨_, by simp, rfl⟩
  · obtain ⟨b, hb, h⟩ := next_of_withIn h
    have := hb.1
    simp only at h
    split at h
    · cases h; exact .inl ⟨_, by simp, rfl⟩
    · split at h <;> cases h <;> exact .inr ⟨b, hb, by omega, by omega, _, _, rfl⟩

/-- ENCU and ENCB (R150, R155). -/
theorem sendAddressed_next {a : Bytes} {s t : State} (h : sendAddressed a s = .next t) :
    EndsWith s t [.len, .ovf] fun t => ∃ p f, s.InIs p ∧ p.length + 11 ≤ 65535 ∧
      f = transmitForm s (addressed s.txtype s.txfid a s.txrsvd p) ∧ f.length ≤ s.params.bufCap ∧
      ∃ l c, t = State.finish { s.setOut f with rlen := l, rsum := c } false false := by
  unfold sendAddressed at h
  dsimp only at h
  split at h
  · cases h; exact .inl ⟨_, by simp, rfl⟩
  · rename_i hl
    obtain ⟨p, hp, h⟩ := next_of_withIn h
    have := hp.1
    simp only [uniOverhead] at h hl
    split at h
    · cases h; exact .inl ⟨_, by simp, rfl⟩
    · cases h; exact .inr ⟨p, _, hp, by omega, rfl, by omega, _, _, rfl⟩

theorem execEscf_next {s t : State} (h : execEscf s = .next t) :
    EndsWith s t [.ovf] fun t => ∃ b, s.InIs b ∧ (escape s.params b).length ≤ s.params.bufCap ∧
      t = (s.setOut (escape s.params b)).finish false false := by
  obtain ⟨b, hb, h⟩ := next_of_withIn h
  simp only at h
  split at h <;> cases h
  · exact .inl ⟨_, by simp, rfl⟩
  · exact .inr ⟨b, hb, by omega, rfl⟩

theorem execDecf_next {s t : State} (h : execDecf s = .next t) :
    EndsWith s t (if cfgStrict s then [.noStart, .short, .ochk] else [.noStart, .short]) fun t =>
      ∃ b f, s.InIs b ∧ f.length ≤ b.length ∧ ∃ l ty fid c p ok,
      t = State.finish { s.setOut f with rlen := l, rtype := ty, rfid := fid, rsum := c, rpos := p } ok false := by
  obtain ⟨b, hb, h⟩ := next_of_withIn h
  rcases framing_cases b with hf | hf | ⟨pre, hi, lo, body, ck, tail, hf⟩
  · rw [locate_noStart hf] at h; cases h; exact .inl ⟨.noStart, by split <;> simp, rfl⟩
  · rw [locate_short hf] at h; cases h; exact .inl ⟨.short, by split <;> simp, rfl⟩
  · rw [locate_frame hf] at h
    simp only at h
    split at h
    · rename_i hs
      cases h
      simp only [Bool.and_eq_true] at hs
      exact .inl ⟨.ochk, by simp [hs.1], rfl⟩
    · cases h
      refine .inr ⟨b, _, hb, ?_, _, _, _, _, _, _, rfl⟩
      rw [slice, List.length_take, List.length_drop]
      omega

/-- IENC, IENCR and IENCW leave a message of `8 + k` bytes (R181, R183, R185). -/
theorem sendInner_eq {c : Byte} {data : Bytes} {s : State} (h : data.length ≤ 247) :
    sendInner c data s = State.finish
      { s.setOut (specInner s.bdest s.bsrc c s.boff (specInnerCrc s.params s.bdest s.bsrc c s.boff data) data)
        with
        rcrc := specInnerCrc s.params s.bdest s.bsrc c s.boff data,
        blen := BitVec.ofNat 8 (8 + data.length) } false false := by
  simp only [sendInner, innerBuild_eq _ _ _ _ _ _ h, innerHeader]

theorem specInner_length (d s c : Byte) (off crc : Half) (data : Bytes) :
    (specInner d s c off crc data).length = 8 + data.length := by
  simp [specInner]; omega

theorem execIenc_next {s t : State} (h : execIenc s = .next t) :
    EndsWith s t [.len] fun t => ∃ b, s.InIs b ∧ b.length ≤ 247 ∧ t = sendInner s.bcmd b s := by
  unfold execIenc at h
  split at h
  · cases h; exact .inl ⟨_, by simp, rfl⟩
  · rename_i hl
    obtain ⟨b, hb, h⟩ := next_of_withIn h
    have := hb.1
    simp only [innerHeader] at hl
    cases h; exact .inr ⟨b, hb, by omega, rfl⟩

theorem execIencw_next {s t : State} (h : execIencw s = .next t) :
    EndsWith s t [.arg] fun t => ∃ b, s.InIs b ∧ b.length ≤ 12 ∧ t = sendInner cmdWrite b s := by
  unfold execIencw at h
  split at h
  · cases h; exact .inl ⟨_, by simp, rfl⟩
  · rename_i hl
    obtain ⟨b, hb, h⟩ := next_of_withIn h
    have := hb.1
    simp only [page] at hl
    cases h; exact .inr ⟨b, hb, by omega, rfl⟩

theorem execIdec_next {s t : State} (h : execIdec s = .next t) :
    EndsWith s t (if cfgStrict s then [.short, .icrc] else [.short]) fun t =>
      ∃ b f, s.InIs b ∧ f.length ≤ b.length ∧ ∃ d sr n st crc c off ok, t = State.finish
        { s.setOut f with
          ddest := d, dsrc := sr, blen := n, dcrc := st, rcrc := crc, dcmd := c, doff := off } false ok := by
  unfold execIdec at h
  split at h
  · cases h; exact .inl ⟨.short, by split <;> simp, rfl⟩
  · obtain ⟨b, hb, h⟩ := next_of_withIn h
    simp only at h
    split at h
    · cases h; exact .inl ⟨.short, by split <;> simp, rfl⟩
    · split at h
      · rename_i hs
        cases h
        simp only [Bool.and_eq_true] at hs
        exact .inl ⟨.icrc, by simp [hs.1], rfl⟩
      · cases h
        refine .inr ⟨b, _, hb, ?_, _, _, _, _, _, _, _, _, rfl⟩
        rw [slice, List.length_take, List.length_drop]
        omega

theorem execDemux_next {s t : State} (h : execDemux s = .next t) :
    ∃ b, s.InIs b ∧
      t = State.finish { s with fq := split b, fcnt := BitVec.ofNat 16 (split b).length } false false := by
  obtain ⟨b, hb, h⟩ := next_of_withIn h
  exact ⟨b, hb, by cases h; rfl⟩

theorem execFpop_next {s t : State} (h : execFpop s = .next t) :
    (s.fq = [] ∧ t = s.raise .empty) ∨ ∃ f q, s.fq = f :: q ∧
      t = State.finish ({ s with fq := q, fcnt := s.fcnt - 1 }.setOut f) false false := by
  unfold execFpop at h
  split at h
  · exact .inl ⟨‹_›, by cases h; rfl⟩
  · exact .inr ⟨_, _, ‹_›, by cases h; rfl⟩

/-! ## Every command at once -/

/-- The errors a command can raise (60_exceptions.md R283). -/
def errorsOf (strict : Bool) : Instr → List Err
  | .nop | .clr | .otoi | .srst | .osum | .encd | .iencr | .demux => []
  | .ovfy => [.noStart, .short, .ochk]
  | .icrc => [.short]
  | .encu | .encb => [.len, .ovf]
  | .escf => [.ovf]
  | .decf => if strict then [.noStart, .short, .ochk] else [.noStart, .short]
  | .ienc => [.len]
  | .iencw => [.arg]
  | .idec => if strict then [.short, .icrc] else [.short]
  | .fpop => [.empty]

/-- If a command answers a next state, it raised one of its errors, or it was SRST, or it ended well: then
ERRLOG is as before and only the commands that compare a checksum can set its flag. -/
theorem exec_next {i : Instr} {s t : State} (h : exec i s = .next t) :
    (∃ e ∈ errorsOf (cfgStrict s) i, t = s.raise e) ∨ (i = .srst ∧ t = s.reinit s.cmd) ∨
    ∃ u ck crc, t = State.finish u ck crc ∧ u.errlog = s.errlog ∧
      (ck = true → i = .decf ∨ i = .ovfy) ∧ (crc = true → i = .icrc ∨ i = .idec) := by
  have inner : ∀ c d, d.length ≤ 247 → ∃ u, sendInner c d s = State.finish u false false ∧ u.errlog = s.errlog :=
    fun c d hd => ⟨_, sendInner_eq hd, rfl⟩
  cases i with
  | nop => cases h; exact .inr (.inr ⟨_, _, _, rfl, rfl, by simp, by simp⟩)
  | clr => cases h; exact .inr (.inr ⟨_, _, _, rfl, rfl, by simp, by simp⟩)
  | otoi => cases h; exact .inr (.inr ⟨_, _, _, rfl, rfl, by simp, by simp⟩)
  | srst => cases h; exact .inr (.inl ⟨rfl, rfl⟩)
  | osum =>
    obtain ⟨b, -, rfl⟩ := execOsum_next h
    exact .inr (.inr ⟨_, _, _, rfl, rfl, by simp, by simp⟩)
  | ovfy =>
    obtain he | ⟨c, l, p, rfl⟩ := execOvfy_next h
    · exact .inl he
    · exact .inr (.inr ⟨_, _, _, rfl, rfl, by simp, by simp⟩)
  | icrc =>
    obtain he | ⟨b, -, -, -, dc, ok, rfl⟩ := execIcrc_next h
    · exact .inl he
    · exact .inr (.inr ⟨_, _, _, rfl, rfl, by simp, by simp⟩)
  | encu =>
    obtain he | ⟨p, f, -, -, -, -, l, c, rfl⟩ := sendAddressed_next h
    · exact .inl he
    · exact .inr (.inr ⟨_, _, _, rfl, rfl, by simp, by simp⟩)
  | encb =>
    obtain he | ⟨p, f, -, -, -, -, l, c, rfl⟩ := sendAddressed_next h
    · exact .inl he
    · exact .inr (.inr ⟨_, _, _, rfl, rfl, by simp, by simp⟩)
  | encd => cases h; exact .inr (.inr ⟨_, _, _, rfl, rfl, by simp, by simp⟩)
  | escf =>
    obtain he | ⟨b, -, -, rfl⟩ := execEscf_next h
    · exact .inl he
    · exact .inr (.inr ⟨_, _, _, rfl, rfl, by simp, by simp⟩)
  | decf =>
    obtain he | ⟨b, f, -, -, l, ty, fid, c, p, ok, rfl⟩ := execDecf_next h
    · exact .inl he
    · exact .inr (.inr ⟨_, _, _, rfl, rfl, by simp, by simp⟩)
  | ienc =>
    obtain he | ⟨b, -, hb, rfl⟩ := execIenc_next h
    · exact .inl he
    · obtain ⟨u, hu, hl⟩ := inner s.bcmd b hb
      exact .inr (.inr ⟨u, _, _, hu, hl, by simp, by simp⟩)
  | iencr =>
    cases h
    obtain ⟨u, hu, hl⟩ := inner cmdRead [s.breq] (by simp)
    exact .inr (.inr ⟨u, _, _, hu, hl, by simp, by simp⟩)
  | iencw =>
    obtain he | ⟨b, -, hb, rfl⟩ := execIencw_next h
    · exact .inl he
    · obtain ⟨u, hu, hl⟩ := inner cmdWrite b (by omega)
      exact .inr (.inr ⟨u, _, _, hu, hl, by simp, by simp⟩)
  | idec =>
    obtain he | ⟨b, f, -, -, d, sr, n, st, crc, c, off, ok, rfl⟩ := execIdec_next h
    · exact .inl he
    · exact .inr (.inr ⟨_, _, _, rfl, rfl, by simp, by simp⟩)
  | demux =>
    obtain ⟨b, -, rfl⟩ := execDemux_next h
    exact .inr (.inr ⟨_, _, _, rfl, rfl, by simp, by simp⟩)
  | fpop =>
    obtain ⟨-, rfl⟩ | ⟨f, q, -, rfl⟩ := execFpop_next h
    · exact .inl ⟨_, by simp [errorsOf], rfl⟩
    · exact .inr (.inr ⟨_, _, _, rfl, rfl, by simp, by simp⟩)

/-! ## STATUS -/

/-- The fields of STATUS come back from the byte (10_state.md R23). -/
theorem statusByte_fields (e : BitVec 4) (ck crc fq : Bool) :
    statusByte e ck crc fq &&& 0x0F = e.setWidth 8 ∧ (statusByte e ck crc fq).getLsbD 4 = ck ∧
    (statusByte e ck crc fq).getLsbD 5 = crc ∧ (statusByte e ck crc fq).getLsbD 6 = fq ∧
    (statusByte e ck crc fq).getLsbD 7 = false ∧ statusErr (statusByte e ck crc fq) = e := by
  revert e ck crc fq; decide

end Sys2Proof.Machine
end

