-- ==== Sys2Proof/Laws/HostPort.lean ====
section
/-! SUPPORT. What a step does, event by event, and all that a step answering a next state can have done. -/

namespace Sys2Proof.Machine

/-! ## Step by the kind of event -/

section
variable {s : State} {rest : List Event}

theorem step_idle (h : s.pending = []) : step s = .next s := by simp [step, advance, h]

theorem step_event {e : Event} (hp : s.pending = e :: rest) :
    step s = perform e { s with pending := rest } := by simp only [step, advance, hp]

theorem step_writeReg {num : Nat} {r : Reg} {v : DWord} (hp : s.pending = .writeReg num v :: rest)
    (hr : Reg.ofNumber num = some r) (hv : v.toNat < 2 ^ r.width) :
    step s = hostWriteReg r v { s with pending := rest } := by
  simp only [step_event hp, perform, Event.problem, regProblem, hr, if_pos hv, performWriteReg]

theorem step_readReg {num : Nat} {r : Reg} (hp : s.pending = .readReg num :: rest)
    (hr : Reg.ofNumber num = some r) :
    step s = .next { s with
      pending := rest, answer := some (.reg num (readReg { s with pending := rest } r)) } := by
  have : (0 : DWord).toNat < 2 ^ r.width := Nat.two_pow_pos _
  simp only [step_event hp, perform, Event.problem, regProblem, hr, if_pos this, performReadReg]

theorem step_writeBuf {sp : Space} {a : Nat} {bs : Bytes} (hp : s.pending = .writeBuf sp a bs :: rest)
    (hl : a + bs.length ≤ s.params.bufCap) :
    step s = performWriteBuf sp a bs { s with pending := rest } := by
  simp only [step_event hp, perform, Event.problem, bufProblem, if_pos hl]

theorem step_readBuf {sp : Space} {a n : Nat} (hp : s.pending = .readBuf sp a n :: rest)
    (hl : a + n ≤ s.params.bufCap) :
    step s = performReadBuf sp a n { s with pending := rest } := by
  simp only [step_event hp, perform, Event.problem, bufProblem, if_pos hl]

theorem step_hardReset (hp : s.pending = .hardReset :: rest) :
    step s = .next ({ s with pending := rest }.reinit 0x00) := by
  simp only [step_event hp, perform, Event.problem]

theorem step_refused {e : Event} {pr : AccessProblem} (hp : s.pending = e :: rest)
    (h : e.problem s.params.bufCap = some pr) : step s = .refused pr.refusal := by
  simp only [step_event hp, perform, h]

end

/-! ## Values of the register's width -/

theorem toNat_setWidth64 {w : Nat} (v : BitVec w) : (v.setWidth 64 : DWord).toNat < 2 ^ w := by
  rw [BitVec.toNat_setWidth]
  exact lt_of_le_of_lt (Nat.mod_le _ _) v.isLt

theorem setWidth_setWidth64 {w : Nat} (v : BitVec w) (h : w ≤ 64) : (v.setWidth 64 : DWord).setWidth w = v := by
  rw [BitVec.setWidth_setWidth_of_le v h, BitVec.setWidth_eq]

/-- A write to CMD stores the value and runs the command (10_state.md R22). -/
theorem step_cmd {s : State} {v : Byte} {rest : List Event}
    (hp : s.pending = .writeReg 0 (v.setWidth 64) :: rest) :
    step s = runCommand { s with pending := rest, cmd := v } := by
  rw [step_writeReg hp rfl (toNat_setWidth64 v), hostWriteReg, if_pos rfl, storeReg,
    setWidth_setWidth64 v (by decide)]

/-! ## All a step can do -/

theorem runCommand_next {s t : State} (h : runCommand s = .next t) :
    (∃ i, exec i s = .next t) ∨ t = s.raise .ill := by
  unfold runCommand at h
  split at h
  · exact .inl ⟨_, h⟩
  · exact .inr (by cases h; rfl)

/-- If a step answers a next state, then nothing was to come, or the next event was a register write, a
register read, a buffer access inside BUF_CAP or a reset, with its effect. -/
theorem step_next {s t : State} (h : step s = .next t) :
    (s.pending = [] ∧ t = s) ∨ ∃ e rest, s.pending = e :: rest ∧
      ((∃ num r v, e = .writeReg num v ∧ Reg.ofNumber num = some r ∧ v.toNat < 2 ^ r.width ∧
          hostWriteReg r v { s with pending := rest } = .next t) ∨
       (∃ a, t = { s with pending := rest, answer := a }) ∨
       (∃ a n, t = { s with pending := rest, answer := a, fresh := n }) ∨
       (∃ a bs, a + bs.length ≤ s.params.bufCap ∧
          t = { s with pending := rest, ibuf := s.ibuf.writeBytes a bs }) ∨
       t = { s with pending := rest } ∨
       t = { s with pending := rest }.reinit 0x00) := by
  match hp : s.pending with
  | [] => rw [step_idle hp] at h; cases h; exact .inl ⟨rfl, rfl⟩
  | e :: rest =>
    refine .inr ⟨e, rest, rfl, ?_⟩
    match hpr : e.problem s.params.bufCap with
    | some pr => rw [step_refused hp hpr] at h; cases h
    | none =>
      match e, hpr with
      | .writeReg num v, hpr =>
        simp only [Event.problem, regProblem] at hpr
        split at hpr
        · cases hpr
        · rename_i r hr
          have hv : v.toNat < 2 ^ r.width := by by_contra hc; simp [hc] at hpr
          rw [step_writeReg hp hr hv] at h
          exact .inl ⟨num, r, v, rfl, hr, hv, h⟩
      | .readReg num, hpr =>
        simp only [Event.problem, regProblem] at hpr
        split at hpr
        · cases hpr
        · rename_i r hr
          rw [step_readReg hp hr] at h; cases h
          exact .inr (.inl ⟨_, rfl⟩)
      | .writeBuf sp a bs, hpr =>
        have hl : a + bs.length ≤ s.params.bufCap := by
          by_contra hc; simp [Event.problem, bufProblem, hc] at hpr
        rw [step_writeBuf hp hl] at h
        cases sp <;> cases h
        · exact .inr (.inr (.inr (.inl ⟨a, bs, hl, rfl⟩)))
        · exact .inr (.inr (.inr (.inr (.inl rfl))))
      | .readBuf sp a n, hpr =>
        have hl : a + n ≤ s.params.bufCap := by
          by_contra hc; simp [Event.problem, bufProblem, hc] at hpr
        rw [step_readBuf hp hl] at h
        cases sp <;> cases h
        · exact .inr (.inl ⟨_, rfl⟩)
        · exact .inr (.inr (.inl ⟨_, _, rfl⟩))
      | .hardReset, _ =>
        rw [step_hardReset hp] at h; cases h
        exact .inr (.inr (.inr (.inr (.inr rfl))))

end Sys2Proof.Machine
end

