-- ==== Sys2Proof/Machine/HostSessions.lean ====
section
/-! DEFINITION. The host's four calls (45_host_sessions.md R232), run on a PTFC and a transport: discovery, query,
slot read and slot write. The host is software (00_scope.md R5): no step of the machine calls these
definitions; they issue accesses to it. -/

namespace Sys2Proof.Machine

/-! ## The transport -/

/-- What the host does on the transport, and the waits between (45_host_sessions.md R230, R231). -/
inductive LinkAct where
  | write (bytes : Bytes)
  | wait (duration : Nat)
  | read (maxBytes timeout : Nat)
  deriving DecidableEq, Repr

/-- A PTFC, and the transport as an oracle (45_host_sessions.md R230, 93_implementation_defined.md U19): what its
reads will return, in order, and what the host has done on it so far. -/
structure System where
  ptfc : State
  reads : List Bytes
  trace : List LinkAct
  deriving DecidableEq, Repr

/-- A result and what it was computed in; or the stop of the PTFC that ended it. -/
abbrev Run (α σ : Type) := Host.Outcome (α × σ) Fault Refusal

/-- Go on with the result of a run. -/
def Run.andThen {α β σ τ : Type} (r : Run α σ) (k : α → σ → Run β τ) : Run β τ :=
  match r with
  | .next (a, s) => k a s
  | .fault e => .fault e
  | .refused e => .refused e

/-- A transport read: what the oracle returns, of which the host has asked for `maxBytes` at most; empty on
timeout, and when the oracle has nothing more (45_host_sessions.md R230). -/
def receive (h : HostParams) (s : System) : Bytes × System :=
  ((s.reads.headD []).take h.maxBytes,
   { s with reads := s.reads.tail, trace := s.trace ++ [.read h.maxBytes h.readTimeout] })

/-! ## Accesses to the PTFC -/

/-- The accesses of some lines, in order (20_memory.md R71). -/
def runLines : List Line → State → Result
  | [], s => .next s
  | l :: ls, s =>
    match perform l.event s with
    | .next t => runLines ls t
    | .fault e => .fault e
    | .refused e => .refused e

/-- The lines, and what the last of them read of a buffer. -/
def runForBytes (ls : List Line) (s : State) : Run Bytes State :=
  match runLines ls s with
  | .next t =>
    match t.answer with
    | some (.bytes _ _ bs) => .next (bs, t)
    | some (.reg _ _) => .next ([], t)
    | none => .next ([], t)
  | .fault e => .fault e
  | .refused e => .refused e

/-- The lines that build a frame, a read of STATUS, then TAKE: OUT as the host reads it (30_encoding.md R121,
70_reset_and_hazards.md R325); none where the last command failed, and OUT is then not read. R121 and R240 list
no read of STATUS, R325 asks for it; what the host does after a failure is DESIGN CHOICE (log entry 13). -/
def runAndTake (ls : List Line) (s : State) : Run (Option Bytes) State :=
  match runLines (ls ++ [.read .status]) s with
  | .next t =>
    if statusErr t.status = 0 then Run.andThen (runForBytes (takeLines t.olen.toNat) t) fun f u => .next (some f, u)
    else .next (none, t)
  | .fault e => .fault e
  | .refused e => .refused e

/-- FPOP until E_EMPTY, or until a candidate satisfies `stop` (45_host_sessions.md R234, R240): the candidates
in their order. The first argument bounds the loop; one more than FCNT is enough. -/
def popUntil (stop : Bytes → Bool) : Nat → State → Run (List Bytes) State
  | 0, s => .next ([], s)
  | n + 1, s =>
    match runLines [.mnemonic .fpop, .read .status] s with
    | .next t =>
      if statusErr t.status = Err.empty.code then .next ([], t)
      else Run.andThen (runForBytes (takeLines t.olen.toNat) t) fun cand u =>
        if stop cand then .next ([cand], u)
        else Run.andThen (popUntil stop n u) fun rest v => .next (cand :: rest, v)
    | .fault e => .fault e
    | .refused e => .refused e

/-- The bytes of one transport read to the PTFC, split, and its candidates taken (45_host_sessions.md R234). -/
def candidatesOf (stop : Bytes → Bool) (bytes : Bytes) (s : State) : Run (List Bytes) State :=
  match runLines (splitLines bytes) s with
  | .next t => popUntil stop (t.fcnt.toNat + 1) t
  | .fault e => .fault e
  | .refused e => .refused e

/-- FPOP, OTOI, DECF until DECF succeeds, or until E_EMPTY: the first extracted frame, if there is one
(41_outer_frame.md R165, 45_host_sessions.md R247, R256; log entry 13). The first argument bounds the loop; one
more than FCNT is enough. -/
def extractFirst : Nat → State → Run (Option Bytes) State
  | 0, s => .next (none, s)
  | n + 1, s =>
    match runLines [.mnemonic .fpop, .read .status] s with
    | .next t =>
      if statusErr t.status = Err.empty.code then .next (none, t)
      else
        match runLines [.mnemonic .otoi, .mnemonic .decf, .read .status] t with
        | .next u =>
          if statusErr u.status = 0 then
            Run.andThen (runForBytes (takeLines u.olen.toNat) u) fun e v => .next (some e, v)
          else extractFirst n u
        | .fault e => .fault e
        | .refused e => .refused e
    | .fault e => .fault e
    | .refused e => .refused e

/-- The bytes of one transport read to the PTFC, split, and the first frame extracted. -/
def extractedFrom (bytes : Bytes) (s : State) : Run (Option Bytes) State :=
  match runLines (splitLines bytes) s with
  | .next t => extractFirst (t.fcnt.toNat + 1) t
  | .fault e => .fault e
  | .refused e => .refused e

/-! ## Exchanges -/

/-- What the PTFC part of a system does. -/
def System.onPtfc {α : Type} (s : System) (r : State → Run α State) : Run α System :=
  Run.andThen (r s.ptfc) fun a t => .next (a, { s with ptfc := t })

/-- A frame is built and sent, and the host waits (45_host_sessions.md R231): whether a frame was sent. Where the
build failed nothing is sent and there is no wait, DESIGN CHOICE (log entry 13). -/
def sendFrame (ls : List Line) (delay : Nat) (s : System) : Run Bool System :=
  Run.andThen (s.onPtfc (runAndTake ls)) fun f t =>
    match f with
    | some f => .next (true, { t with trace := t.trace ++ [.write f, .wait delay] })
    | none => .next (false, t)

/-- Send, wait, read: the bytes of the one read (45_host_sessions.md R231). Where no frame was sent there is no
read, and the exchange gave no data, DESIGN CHOICE (log entry 13). -/
def exchange (h : HostParams) (ls : List Line) (delay : Nat) (s : System) : Run Bytes System :=
  Run.andThen (sendFrame ls delay s) fun sent t => .next (if sent then receive h t else ([], t))

/-! ## Discovery and query -/

/-- The Discovery Session (45_host_sessions.md R234, R237): the mapping from Address to node id, as bytes. -/
def discovery (h : HostParams) (s : System) : Run (List (Bytes × Bytes)) System :=
  Run.andThen (exchange h [.mnemonic .encd] h.settleDelay s) fun bytes t =>
    Run.andThen (t.onPtfc (candidatesOf (fun _ => false) bytes)) fun cands u => .next (discoveryMap h cands, u)

/-- The discovery call (45_host_sessions.md R232, R239): Address text to node id. -/
def discoveryCall (h : HostParams) (s : System) : Run (List (List Char × List Char)) System :=
  Run.andThen (discovery h s) fun m t => .next (discoveryText m, t)

/-- The query call (45_host_sessions.md R232, R240): the first expected response of the target to the command,
`code` the response code expected of it; or none, also where the request could not be built (a payload for which
ENCU ends with E_OVF; log entry 13). A payload above BUF_CAP ends the run with the PTFC's refusal of the STORE. -/
def queryCall (h : HostParams) (target : DWord) (command code : Byte) (s : System) : Run (Option Bytes) System :=
  Run.andThen (exchange h (unicastBuild target (queryPayload h command)) h.queryDelay s) fun bytes t =>
    Run.andThen (t.onPtfc (candidatesOf (queryMatches h code) bytes)) fun cands u =>
      .next (queryResult h code cands, u)

/-- A query with its caller's count of empty results (45_host_sessions.md R241). -/
def countedQuery (h : HostParams) (target : DWord) (command code : Byte) (c : QueryCaller) (s : System) :
    Run (Option Bytes × QueryCaller) System :=
  Run.andThen (queryCall h target command code s) fun r t => .next ((r, queryCounted h target r c), t)

/-! ## Slot transfer -/

/-- A read request at an offset, and the frame extracted from what came back (45_host_sessions.md R248, R256). -/
def pageExchange (h : HostParams) (off : Half) (s : System) : Run (Option Bytes) System :=
  Run.andThen (exchange h (relayrBuild off) h.settleDelay s) fun bytes t => t.onPtfc (extractedFrom bytes)

/-- The read path (45_host_sessions.md R248 to R250), for at most as many transport reads as the first argument
says; the retries themselves have no bound. -/
def readLoop (h : HostParams) : Nat → ReadSession → System → Run ReadSession System
  | 0, r, s => .next (r, s)
  | n + 1, r, s =>
    let r := readRequest h r
    match r.phase with
    | .awaitingResponse =>
      Run.andThen (pageExchange h r.baseOffset s) fun e t =>
        readLoop h n (readAccumulate h (readReceive h r e)) t
    | .idle | .requesting | .accumulating | .done => .next (r, s)

/-- The slot-read call (45_host_sessions.md R232): the SlotRecord of a slot; none while the session is not done
when the oracle has nothing more to return. -/
def slotReadCall (h : HostParams) (slot : Nat) (s : System) : Run (Option Bytes) System :=
  Run.andThen (readLoop h (s.reads.length + 1) (readStart slot) s) fun r t =>
    .next (if r.phase = .done then some r.record else none, t)

/-- The write path (45_host_sessions.md R255 to R259), for at most as many write and readback pairs as the first
argument says. -/
def writeLoop (h : HostParams) : Nat → WriteSession → System → Run WriteSession System
  | 0, w, s => .next (w, s)
  | n + 1, w, s =>
    let w := writeRequest w
    match w.phase with
    | .writing =>
      Run.andThen (sendFrame (relaywBuild w.baseOffset (writeChunk h w)) h.settleDelay s) fun _ t =>
        let w := writeReadback w
        Run.andThen (pageExchange h w.baseOffset t) fun e u => writeLoop h n (writeNext h (writeVerify h w e)) u
    | .idle | .verifying | .matched | .retrying | .advancing | .abandoned | .terminated => .next (w, s)

/-- How many write and readback pairs a slot write can take at most: every byte a page of its own and every
page tried to the bound. -/
def writeFuel (h : HostParams) (record : Bytes) : Nat := (record.length + 1) * (h.writeRetryMax + 1)

/-- The slot-write call (45_host_sessions.md R232): success or failure of each page that was tried, in order. -/
def slotWriteCall (h : HostParams) (slot : Nat) (record : Bytes) (s : System) : Run (List PageReport) System :=
  Run.andThen (writeLoop h (writeFuel h record) (writeStart slot record) s) fun w t => .next (w.reports, t)

end Sys2Proof.Machine
end

