-- ==== Sys2Proof/Laws/HostSessions.lean ====
section
/-! SUPPORT. What the host's runs and the session steps can do, for proofs that cite it instead of unfolding them. -/

namespace Sys2Proof.Machine

/-! ## Runs -/

theorem Run.andThen_next {α β σ τ : Type} {r : Run α σ} {k : α → σ → Run β τ} {x : β × τ}
    (h : r.andThen k = .next x) : ∃ a s, r = .next (a, s) ∧ k a s = .next x := by
  match r, h with
  | .next (a, s), h => exact ⟨a, s, rfl, h⟩

theorem runLines_append (ls ls' : List Line) (s : State) :
    runLines (ls ++ ls') s = match runLines ls s with
      | .next t => runLines ls' t
      | .fault e => .fault e
      | .refused e => .refused e := by
  induction ls generalizing s with
  | nil => rfl
  | cons l ls ih =>
    simp only [List.cons_append, runLines]
    cases perform l.event s with
    | next t => exact ih t
    | fault e => rfl
    | refused e => rfl

/-- A transport read gives at most `maxBytes` bytes (45_host_sessions.md R230). -/
theorem receive_length (h : HostParams) (s : System) : (receive h s).1.length ≤ h.maxBytes :=
  List.length_take_le _ _

@[simp] theorem receive_ptfc (h : HostParams) (s : System) : (receive h s).2.ptfc = s.ptfc := rfl

/-- A frame is taken exactly after commands of which the last one succeeded (70_reset_and_hazards.md R325). -/
theorem runAndTake_next {ls : List Line} {s u : State} {f : Option Bytes} (h : runAndTake ls s = .next (f, u)) :
    ∃ t, runLines (ls ++ [.read .status]) s = .next t ∧
      ((statusErr t.status ≠ 0 ∧ f = none ∧ u = t) ∨
       (statusErr t.status = 0 ∧ ∃ bs, f = some bs ∧ runForBytes (takeLines t.olen.toNat) t = .next (bs, u))) := by
  unfold runAndTake at h
  split at h
  · rename_i t ht
    refine ⟨t, ht, ?_⟩
    split at h
    · rename_i h0
      obtain ⟨bs, v, hb, hv⟩ := Run.andThen_next h
      cases hv
      exact .inr ⟨h0, bs, rfl, hb⟩
    · rename_i h0
      cases h
      exact .inl ⟨h0, rfl, rfl⟩
  · cases h
  · cases h

/-- Sending writes one frame and waits once, or does nothing on the transport. -/
theorem sendFrame_next {ls : List Line} {delay : Nat} {s t : System} {sent : Bool}
    (h : sendFrame ls delay s = .next (sent, t)) :
    t.reads = s.reads ∧ ((sent = false ∧ t.trace = s.trace) ∨
      (sent = true ∧ ∃ f, t.trace = s.trace ++ [.write f, .wait delay])) := by
  obtain ⟨f, u, hu, hk⟩ := Run.andThen_next h
  obtain ⟨_, v, -, hv⟩ := Run.andThen_next hu
  cases hv
  cases f <;> cases hk
  · exact ⟨rfl, .inl ⟨rfl, rfl⟩⟩
  · exact ⟨rfl, .inr ⟨rfl, _, rfl⟩⟩

/-! ## Sessions that have ended -/

theorem readStep_done {h : HostParams} {s : ReadSession} (hs : s.phase = .done) (r : Option Bytes) :
    readStep h s r = s := by
  simp [readStep, readRequest, readReceive, readAccumulate, hs]

theorem writeStep_terminated {h : HostParams} {s : WriteSession} (hs : s.phase = .terminated) (r : Option Bytes) :
    writeStep h s r = s := by
  simp [writeStep, writeRequest, writeReadback, writeVerify, writeNext, hs]

theorem writeStep_abandoned {h : HostParams} {s : WriteSession} (hs : s.phase = .abandoned)
    (ha : h.abandon = .abort) (r : Option Bytes) : writeStep h s r = s := by
  simp [writeStep, writeRequest, writeReadback, writeVerify, writeNext, hs, ha]

/-! ## Pages -/

@[simp] theorem pageData_length (e : Bytes) : (pageData e).length = e.length - 17 := by
  simp only [pageData, slice, List.length_take, List.length_drop]; omega

end Sys2Proof.Machine
end

