-- ==== Sys2Proof/Laws/PerInstr.lean ====
section
/-! SUPPORT. The family InOpcodeMap, one lemma per command: a command is well formed, its opcode stands in
the opcode map of 30_encoding.md R112 under a full mask, and the decoder reads the command from a table
word that holds the opcode. -/

namespace Sys2Proof.Laws.InOpcodeMap

/-- What the family says of a command. -/
def Statement (i : Instr) : Prop :=
  i.wf = true ∧ (⟨0xFF, encode i, i⟩ : OpcodeRow) ∈ opcodeRows ∧
    decodeTableWord 8 (encode i).toNat = some i

theorem nop : Statement .nop := ⟨rfl, by decide, by decide⟩
theorem clr : Statement .clr := ⟨rfl, by decide, by decide⟩
theorem otoi : Statement .otoi := ⟨rfl, by decide, by decide⟩
theorem srst : Statement .srst := ⟨rfl, by decide, by decide⟩
theorem osum : Statement .osum := ⟨rfl, by decide, by decide⟩
theorem ovfy : Statement .ovfy := ⟨rfl, by decide, by decide⟩
theorem icrc : Statement .icrc := ⟨rfl, by decide, by decide⟩
theorem encu : Statement .encu := ⟨rfl, by decide, by decide⟩
theorem encd : Statement .encd := ⟨rfl, by decide, by decide⟩
theorem encb : Statement .encb := ⟨rfl, by decide, by decide⟩
theorem escf : Statement .escf := ⟨rfl, by decide, by decide⟩
theorem decf : Statement .decf := ⟨rfl, by decide, by decide⟩
theorem ienc : Statement .ienc := ⟨rfl, by decide, by decide⟩
theorem iencr : Statement .iencr := ⟨rfl, by decide, by decide⟩
theorem iencw : Statement .iencw := ⟨rfl, by decide, by decide⟩
theorem idec : Statement .idec := ⟨rfl, by decide, by decide⟩
theorem demux : Statement .demux := ⟨rfl, by decide, by decide⟩
theorem fpop : Statement .fpop := ⟨rfl, by decide, by decide⟩

end Sys2Proof.Laws.InOpcodeMap
end

