-- ==== Sys2Proof/Tests/Slice0.lean ====
section
/-! SUPPORT. Small tests: refused accesses, opcodes, one step per command with expected values of
95_test_vectors.md, and for each statement with hypotheses a state and operands that meet them. -/

namespace Sys2Proof.Tests

open Sys2Proof.Machine

/-- The start state of 95_test_vectors.md: reset, with BDEST and BSRC written by the host. -/
def base : State := { State.reset with bdest := 0xFF, bsrc := 0x01 }

/-- The host has done PUT of these bytes. -/
def input (s : State) (b : Bytes) : State :=
  { s with ibuf := Mem.writeBytes [] 0 b, ilen := BitVec.ofNat 16 b.length }

/-- The next thing the host does. -/
def host (e : Event) : State := { base with pending := [e] }

/-- A field of the next state. -/
def see {α : Type} (r : Result) (f : State → α) : Option α :=
  match r with
  | .next t => some (f t)
  | .fault _ => none
  | .refused _ => none

/-- OUT of a state. -/
def out (s : State) : Bytes := outRead s 0 s.olen.toNat

/-- The source's discovery frame (V-S1). -/
def disc : Bytes := [0x7E, 0x00, 0x04, 0x08, 0x01, 0x4E, 0x44, 0x64]

/-- The discovery frame with a wrong checksum (V-C9). -/
def badDisc : Bytes := [0x7E, 0x00, 0x04, 0x08, 0x01, 0x4E, 0x44, 0x65]

/-- The read request of V-I1. -/
def readReq : Bytes := [0xFF, 0x01, 0x09, 0x33, 0xE0, 0x52, 0x80, 0x00, 0x0C]

/-- ADDR of the vectors, A1. -/
def a1 : DWord := 0x0013A200417AB3C1

/-! ## Ill-formed accesses are refused, each check once -/

theorem test_wf_registerNumber : (Event.readReg 28).wf 1024 = false := by decide
theorem test_wf_writeNumber : (Event.writeReg 28 0).wf 1024 = false := by decide
theorem test_wf_byteRegister : (Event.writeReg 3 256).wf 1024 = false := by decide
theorem test_wf_halfRegister : (Event.writeReg 13 65536).wf 1024 = false := by decide
theorem test_wf_writePastCap : (Event.writeBuf .ibuf 1023 [1, 2]).wf 1024 = false := by decide
theorem test_wf_readPastCap : (Event.readBuf .obuf 1024 1).wf 1024 = false := by decide
theorem test_wf_legal : (Event.writeReg 7 0xFFFFFFFFFFFFFFFF).wf 1024 = true ∧
    (Event.writeBuf .ibuf 1022 [1, 2]).wf 1024 = true ∧ Event.hardReset.wf 1024 = true := by decide

/-! ## Opcodes, written out bit by bit from 30_encoding.md R112 -/

theorem test_decode_nop : decodeTableWord 8 0b00000000 = some .nop := by decide
theorem test_decode_clr : decodeTableWord 8 0b00000001 = some .clr := by decide
theorem test_decode_otoi : decodeTableWord 8 0b00000010 = some .otoi := by decide
theorem test_decode_srst : decodeTableWord 8 0b00000011 = some .srst := by decide
theorem test_decode_osum : decodeTableWord 8 0b00010000 = some .osum := by decide
theorem test_decode_ovfy : decodeTableWord 8 0b00010001 = some .ovfy := by decide
theorem test_decode_icrc : decodeTableWord 8 0b00010010 = some .icrc := by decide
theorem test_decode_encu : decodeTableWord 8 0b00100000 = some .encu := by decide
theorem test_decode_encd : decodeTableWord 8 0b00100001 = some .encd := by decide
theorem test_decode_encb : decodeTableWord 8 0b00100010 = some .encb := by decide
theorem test_decode_escf : decodeTableWord 8 0b00100011 = some .escf := by decide
theorem test_decode_decf : decodeTableWord 8 0b00100100 = some .decf := by decide
theorem test_decode_ienc : decodeTableWord 8 0b00110000 = some .ienc := by decide
theorem test_decode_iencr : decodeTableWord 8 0b00110001 = some .iencr := by decide
theorem test_decode_iencw : decodeTableWord 8 0b00110010 = some .iencw := by decide
theorem test_decode_idec : decodeTableWord 8 0b00110011 = some .idec := by decide
theorem test_decode_demux : decodeTableWord 8 0b01000000 = some .demux := by decide
theorem test_decode_fpop : decodeTableWord 8 0b01000001 = some .fpop := by decide
theorem test_decode_unassigned : ∀ w ∈ [0x04, 0x13, 0x25, 0x34, 0x42, 0xFF], decodeTableWord 8 w = none := by
  decide

/-! ## One step, or one command, with the values of 95_test_vectors.md -/

-- V-K2, V-K1
theorem test_nop : see (exec .nop { base with fcnt := 2 }) (fun t => t.status) = some 0x40 := by decide
theorem test_nop_keepsErrlog :
    see (exec .nop { base with status := 0x03, errlog := 0x0008 }) (fun t => (t.status, t.errlog)) =
      some (0x00, 0x0008) := by decide
-- V-K3
theorem test_clr :
    see (exec .clr { base with fcnt := 2, fq := [[1], [2]], olen := 8, ilen := 12 })
      (fun t => (t.fcnt, t.fq, t.olen, t.ilen, t.status)) = some (0, [], 0, 0, 0x00) := by decide
-- V-K4
theorem test_otoi :
    see (exec .otoi (base.setOut readReq)) (fun t => ((inBytes t).toOption, t.ilen, t.olen)) =
      some (some readReq, 9, 9) := by decide
-- V-K6
theorem test_srst :
    see (exec .srst { base with cmd := 0x03, cfg := 0x03, errlog := 0x0018, fcnt := 1, txtype := 0x10, breq := 0x04 })
      (fun t => (t.cfg, t.errlog, t.fcnt, t.txtype, t.breq, t.cmd)) =
      some (0x00, 0, 0, 0x00, 0x0C, 0x03) := by decide
-- V-C1, V-C6
theorem test_osum : see (exec .osum (input base [0x08, 0x01, 0x4E, 0x44])) (fun t => t.rsum) = some 0x64 := by
  decide
theorem test_osum_wraps : see (exec .osum (input base [0xFF, 0xFF, 0xFF])) (fun t => t.rsum) = some 0x02 := by
  decide
-- V-C10, V-C9
theorem test_ovfy :
    see (exec .ovfy (input base ([0x01, 0x02] ++ disc ++ [0x99])))
      (fun t => (t.status, t.rpos, t.rlen, t.rsum)) = some (0x10, 2, 4, 0x64) := by decide
theorem test_ovfy_mismatch :
    see (exec .ovfy (input base badDisc)) (fun t => (t.status, t.errlog)) = some (0x04, 0x0010) := by decide
-- V-C14, V-C16
theorem test_icrc :
    see (exec .icrc (input base [0xFF, 0x01, 0x09, 0xAA, 0x55, 0x52, 0x80, 0x00, 0x0C, 0xDE, 0xAD]))
      (fun t => (t.rcrc, t.dcrc, t.status)) = some (0xE033, 0x55AA, 0x00) := by decide
theorem test_icrc_noField :
    see (exec .icrc (input base [0x01, 0x02, 0x03])) (fun t => (t.rcrc, t.blen, t.dcrc)) =
      some (0x3003, 3, 0) := by decide
-- V-O7 (with A1), V-O6
theorem test_encu :
    see (exec .encu (input { base with addr := a1, txtype := 0x10, txfid := 0x01 } [0x56]))
      (fun t => (out t, t.rlen, t.rsum)) =
      some ([0x7E, 0x00, 0x0C, 0x10, 0x01, 0x00, 0x13, 0xA2, 0x00, 0x41, 0x7A, 0xB3, 0xC1, 0x00, 0x56, 0xB4],
        12, 0xB4) := by decide
theorem test_encu_escaped :
    see (exec .encu (input { base with addr := a1, cfg := 0x01 } [0x7E, 0x7D, 0x11, 0x13])) out =
      some [0x7E, 0x00, 0x0F, 0x00, 0x00, 0x00, 0x7D, 0x33, 0xA2, 0x00, 0x41, 0x7A, 0xB3, 0xC1, 0x00, 0x7D, 0x5E,
        0x7D, 0x5D, 0x7D, 0x31, 0x7D, 0x33, 0xFC] := by decide
-- V-O12
theorem test_encd : see (exec .encd { base with cfg := 0x01 }) (fun t => (out t, t.rlen, t.rsum)) =
    some (disc, 4, 0x00) := by decide
-- V-O13
theorem test_encb :
    see (exec .encb (input { base with addr := a1 } readReq)) (fun t => (out t, t.rlen, t.rsum)) =
      some ([0x7E, 0x00, 0x14, 0x00, 0x00, 0x00, 0x00, 0x00, 0x00, 0x00, 0x00, 0xFF, 0xFF, 0x00] ++ readReq ++
        [0x07], 20, 0x07) := by decide
-- V-O17
theorem test_escf :
    see (exec .escf (input base [0x7E, 0x00, 0x7D, 0x33, 0xA2])) out =
      some [0x7E, 0x00, 0x7D, 0x5D, 0x33, 0xA2] := by decide
-- V-O22, V-O24
theorem test_decf :
    see (exec .decf (input base ([0x01, 0x02] ++ disc ++ [0x99])))
      (fun t => ((out t, t.rlen), (t.rtype, t.rfid, t.rsum), t.rpos, t.status)) =
      some ((disc, 4), (0x08, 0x01, 0x64), 2, 0x10) := by decide
theorem test_decf_strict :
    see (exec .decf (input { base with cfg := 0x02 } badDisc)) (fun t => (t.status, t.errlog, t.olen)) =
      some (0x04, 0x0010, 0) := by decide
-- V-I8
theorem test_ienc :
    see (exec .ienc (input { base with bdest := 0x10, bsrc := 0x20, bcmd := 0x41, boff := 0xBEEF } [0xDE, 0xAD]))
      (fun t => (out t, t.rcrc)) =
      some ([0x10, 0x20, 0x0A, 0x70, 0xC2, 0x41, 0xEF, 0xBE, 0xDE, 0xAD], 0xC270) := by decide
-- V-I1
theorem test_iencr :
    see (exec .iencr { base with boff := 0x0080 }) (fun t => (out t, t.rcrc, t.blen)) =
      some (readReq, 0xE033, 9) := by decide
-- V-I4, V-I6
theorem test_iencw :
    see (exec .iencw { base with boff := 0x1234 }) (fun t => (out t, t.rcrc)) =
      some ([0xFF, 0x01, 0x08, 0xEC, 0x52, 0x57, 0x34, 0x12], 0x52EC) := by decide
theorem test_iencw_tooLong :
    see (exec .iencw { base with ilen := 13 }) (fun t => (t.status, t.errlog)) = some (0x09, 0x0200) := by decide
-- V-I15, V-I14
theorem test_idec :
    see (exec .idec (input base [0xFF, 0x01, 0x08, 0xEC, 0x52, 0x57, 0x34, 0x12, 0x99]))
      (fun t => (t.dcmd, t.doff, t.blen, t.olen, t.status)) = some (0x57, 0x1234, 8, 0, 0x20) := by decide
theorem test_idec_strict :
    see (exec .idec (input { base with cfg := 0x02 } (readReq.set 3 0x34))) (fun t => (t.status, t.errlog)) =
      some (0x05, 0x0020) := by decide
-- V-D9 (the split only), V-D6
theorem test_demux :
    see (exec .demux (input base [0x01, 0x7E, 0x00, 0x7E, 0x7E, 0x7D])) (fun t => (t.fq, t.fcnt, t.status)) =
      some ([[0x01], [0x7E, 0x00], [0x7E], [0x7E, 0x7D]], 4, 0x40) := by decide
theorem test_demux_empty : see (exec .demux base) (fun t => (t.fq, t.fcnt, t.status)) = some ([], 0, 0x00) := by
  decide
-- V-D12
theorem test_fpop :
    see (exec .fpop { base with fq := [disc, [0x7E, 0x00, 0x10, 0x88]], fcnt := 2 })
      (fun t => (out t, t.fq, t.fcnt, t.status)) = some (disc, [[0x7E, 0x00, 0x10, 0x88]], 1, 0x40) := by decide
theorem test_fpop_empty : see (exec .fpop base) (fun t => (t.status, t.errlog, t.olen)) = some (0x08, 0x0100, 0) := by
  decide
-- V-K7, V-K9
theorem test_illegal :
    see (step { host (.writeReg 0 0x99) with fcnt := 1, fq := [[1]] }) (fun t => (t.cmd, t.status, t.errlog)) =
      some (0x99, 0x41, 0x0002) := by decide
-- V-K10 to V-K13
theorem test_ilenBad : see (step (host (.writeReg 13 1025))) (fun t => (t.ilen, t.errlog)) = some (0, 0x0400) := by
  decide
theorem test_clrerr : see (step { host (.writeReg 2 0x0008) with errlog := 0x0018 }) (fun t => t.errlog) =
    some 0x0010 := by decide
theorem test_cfgReserved : see (step (host (.writeReg 3 0xFF))) (fun t => t.cfg) = some 0x03 := by decide
theorem test_readOnly : see (step (host (.writeReg 18 0x55))) (fun t => t.rsum) = some 0x00 := by decide
/-- A command placed where a step takes it runs as the first one after reset (V-O12). -/
theorem test_step_afterReset :
    see (step (State.reset.withFetchWord 8 0x21)) (fun t => (t.cmd, out t)) = some (0x21, disc) := by decide
/-- A host write, then a host read of the same bytes. -/
theorem test_writeThenRead :
    (do let t ← see (step (host (.writeBuf .ibuf 1022 [0xAB, 0xCD]))) id
        see (step { t with pending := [.readBuf .ibuf 1022 2] }) (fun u => u.answer)) =
      some (some (.bytes .ibuf 1022 [0xAB, 0xCD])) := by decide

/-! ## The CRC candidate's single steps (95_test_vectors.md, part 2.1), the notation, the host's scenarios -/

theorem test_crcSteps : crcUpdate crcCandidate 0x0000 0x7E = 0xA059 ∧ crcUpdate crcCandidate 0x1234 0x56 = 0xD473 ∧
    crcUpdate crcCandidate 0xFFFF 0xFF = 0xFF00 := by decide
-- V-P1: encoding 31 02 22
theorem test_relayrCodes : programCodes (relayrLines 0x0080 24) = [0x31, 0x02, 0x22] := by decide

/-- Host parameters of the tests; the spec leaves all of them open. -/
def hostParams : HostParams :=
  { statusType := 0x8B, queryPayloadLen := 4, queryRespOff := 4, queryEscalateN := 3, readMaxPages := 11,
    extractedMin := 17, writeRetryMax := 1, shortFill := .truncate, maxBytes := 256, settleDelay := 0,
    queryDelay := 0, readTimeout := 0 }

/-- The 26-byte discovery response of V-P2. -/
def response : Bytes :=
  [0x7E, 0x00, 0x16, 0x88, 0x01, 0x4E, 0x44, 0x00, 0x00, 0x00, 0x00, 0x13, 0xA2, 0x00, 0x41, 0x7A, 0xB3, 0xC1, 0x28,
   0x4C, 0x4F, 0x43, 0x4F, 0x31, 0x00, 0x7A]

-- V-S2, V-P2
theorem test_discovery : discoveryRecord hostParams response =
    some ([0x00, 0x13, 0xA2, 0x00, 0x41, 0x7A, 0xB3, 0xC1], [0x4C, 0x4F, 0x43, 0x4F, 0x31]) := by decide
theorem test_addressText : addressText [0x00, 0x13, 0xA2, 0x00, 0x41, 0x7A, 0xB3, 0xC1] =
    ['0', '0', '1', '3', 'A', '2', '0', '0', '4', '1', '7', 'A', 'B', '3', 'C', '1'] := by decide

/-- A system whose transport will return these reads. -/
def system (reads : List Bytes) : System := { ptfc := base, reads, trace := [] }

/-- What a run gives. -/
def result {α σ : Type} (r : Run α σ) : Option α :=
  match r with
  | .next (a, _) => some a
  | .fault _ => none
  | .refused _ => none

/-- What the host has written on the transport in a run. -/
def written {α : Type} (r : Run α System) : List Bytes :=
  match r with
  | .next (_, s) => s.trace.filterMap fun a => match a with
    | .write bs => some bs
    | .wait _ => none
    | .read _ _ => none
  | .fault _ => []
  | .refused _ => []

-- V-S1, V-S2: the frame sent, and the mapping from "0013A200417AB3C1" to "LOCO1"
theorem test_discoveryCall : result (discoveryCall hostParams (system [response])) =
    some [(['0', '0', '1', '3', 'A', '2', '0', '0', '4', '1', '7', 'A', 'B', '3', 'C', '1'],
      ['L', 'O', 'C', 'O', '1'])] := by decide
theorem test_discoveryWritten : written (discoveryCall hostParams (system [response])) = [disc] := by decide
/-- A candidate that ends before QUERY_RESP_OFF is no match (log entry 13). -/
theorem test_queryShort : queryMatches { hostParams with queryRespOff := 26, statusType := 0x88 } 0 response = false ∧
    queryMatches { hostParams with queryRespOff := 4, statusType := 0x88 } 1 response = true := by decide
/-- Where ENCU ends with E_OVF the host sends nothing and has no result (70_reset_and_hazards.md R325, log entry
13). -/
theorem test_queryNotBuilt :
    (let q := queryCall { hostParams with queryPayloadLen := 1 } a1 0x56 0
      { ptfc := { base with params := { defaultParams with bufCap := 15 } }, reads := [response], trace := [] }
     (result q, written q)) = (some none, []) := by decide
/-- Another target starts the count again (45_host_sessions.md R241). -/
theorem test_queryCount : (queryCounted hostParams 2 none (queryCounted hostParams 1 none ⟨1, 1, []⟩)).empties = 1 ∧
    (queryCounted hostParams 1 none ⟨1, 2, []⟩).escalated = [1] := by decide

/-- The page of V-S3. -/
def pageBytes : Bytes := [1, 2, 3, 4, 5, 6, 7, 8, 9, 10, 11, 12]

-- V-S3, V-P4
def pageFrame : Bytes := [0x7E, 0x00, 0x19, 0x80] ++ List.replicate 12 0 ++ pageBytes ++ [0x31]

theorem test_writeMatched : (writeStep hostParams (writeStart 1 pageBytes) (some pageFrame)).baseOffset = 140 ∧
    (writeStep hostParams (writeStart 1 pageBytes) (some pageFrame)).reports = [.written 0] := by decide
/-- A lost readback, then the page: one retry, then success (45_host_sessions.md R261). -/
theorem test_slotWriteCall :
    result (slotWriteCall hostParams 1 pageBytes (system [[], pageFrame])) = some [.written 0] := by
  decide +kernel
/-- A lost page, then the page; done at READ_MAX_PAGES pages. -/
theorem test_slotReadCall :
    result (slotReadCall { hostParams with readMaxPages := 1 } 1 (system [[], pageFrame])) = some (some pageBytes) := by
  decide

/-! ## States that meet the hypotheses of the statements -/

theorem input_inIs {s : State} {b : Bytes} (h : b.length < 65536) : (input s b).InIs b :=
  ⟨by rw [input, BitVec.toNat_ofNat, Nat.mod_eq_of_lt (by omega)], (Mem.stored_writeBytes [] 0 b).holds⟩

theorem input_inv {b : Bytes} (h : b.length ≤ 1024) : (input base b).Inv where
  cap := (by decide : 540 ≤ base.params.bufCap ∧ base.params.bufCap ≤ 4096)
  ibuf := ⟨Mem.wf_writeBytes _ _ List.Pairwise.nil, fun c hc => by
    rcases Mem.keys_writeBytes hc with h2 | h2
    · show c.1 < 1024; omega
    · cases h2⟩
  obuf := ⟨List.Pairwise.nil, fun c hc => by cases hc⟩
  ilen := by show (BitVec.ofNat 16 b.length).toNat ≤ 1024; rw [BitVec.toNat_ofNat]; omega
  olen := ⟨Nat.zero_le _, fun a h => absurd h (Nat.not_lt_zero a)⟩
  fcnt := (by decide : base.fcnt.toNat = base.fq.length)
  fq := ⟨fun f hf => (by cases hf), Nat.zero_le _⟩
  status := (by decide : (statusErr base.status).toNat ≤ 9 ∧ base.status.getLsbD 7 = false ∧
    statusFqne base.status = decide (0 < base.fcnt.toNat))
  errlog := (by decide : base.errlog &&& 0xF801 = 0)
  cfg := (by decide : base.cfg &&& 0xFC = 0)

theorem replicate_length {n m : Nat} {b : Byte} (h : n < m) : (List.replicate n b).length < m := by
  rwa [List.length_replicate]

/-- A discovery frame in IN, for the statements about frames. -/
theorem disc_frame : FrameIn disc [] 0x00 0x04 [0x08, 0x01, 0x4E, 0x44] 0x64 [] :=
  ⟨rfl, by decide, rfl, by decide⟩

theorem badDisc_frame : FrameIn ([0x01] ++ badDisc ++ [0x99]) [0x01] 0x00 0x04 [0x08, 0x01, 0x4E, 0x44] 0x65 [0x99] :=
  ⟨rfl, by decide, rfl, by decide⟩

/-- The least legal length, V-O25. -/
theorem least_frame : FrameIn [0x7E, 0x00, 0x02, 0x08, 0x01, 0xF6] [] 0x00 0x02 [0x08, 0x01] 0xF6 [] :=
  ⟨rfl, by decide, rfl, by decide⟩

/-- The three ways to be short, each just short: V-O27, V-O26, V-O28. -/
theorem short_frames : ShortFrameIn [0x7E, 0x00] ∧ ShortFrameIn [0x7E, 0x00, 0x01, 0x08, 0xF7] ∧
    ShortFrameIn [0x7E, 0x00, 0x04, 0x08, 0x01, 0x4E, 0x44] :=
  ⟨⟨[], [0x00], rfl, by decide, .inl (by decide)⟩,
   ⟨[], [0x00, 0x01, 0x08, 0xF7], rfl, by decide, .inr ⟨_, _, _, rfl, .inl (by decide)⟩⟩,
   ⟨[], [0x00, 0x04, 0x08, 0x01, 0x4E, 0x44], rfl, by decide, .inr ⟨_, _, _, rfl, .inr (by decide)⟩⟩⟩

theorem witness_DecodeAndEncodeAgree : Instr.fpop.wf = true ∧ decode 0x41 = .ok .fpop := ⟨rfl, rfl⟩

theorem witness_IllegalOpcodeOnlyReports :
    ∀ v ∈ [(0x04 : Byte), 0x0F, 0x13, 0x1F, 0x25, 0x2F, 0x34, 0x3F, 0x42, 0xFF],
      (host (.writeReg 0 (v.setWidth 64))).pending = [.writeReg 0 (v.setWidth 64)] ∧
      ((0x04 ≤ v ∧ v ≤ 0x0F) ∨ (0x13 ≤ v ∧ v ≤ 0x1F) ∨ (0x25 ≤ v ∧ v ≤ 0x2F) ∨ (0x34 ≤ v ∧ v ≤ 0x3F) ∨
        (0x42 ≤ v)) := by decide

theorem witness_StepRunsTheDecodedCommand :
    (host (.writeReg 0 ((0x10 : Byte).setWidth 64))).pending = [.writeReg 0 ((0x10 : Byte).setWidth 64)] ∧
    decode 0x10 = .ok .osum := ⟨rfl, rfl⟩

theorem witness_IdleWithoutAnAccess : base.pending = [] := rfl

theorem witness_BufferWriteStoresExactly : Mem.wf [(3, 0x07), (5, 0x00)] := by decide

theorem witness_HostBufferWrites : ∀ sp ∈ [Space.ibuf, .obuf],
    (host (.writeBuf sp 1020 [1, 2, 3, 4])).pending = [.writeBuf sp 1020 [1, 2, 3, 4]] ∧
    1020 + [1, 2, 3, 4].length ≤ (host (.writeBuf sp 1020 [1, 2, 3, 4])).params.bufCap := by decide

theorem witness_AccessesOutsideTheSpecAreRefused :
    (27 < 28 ∧ (host (.writeReg 28 0)).pending = [.writeReg 28 0]) ∧
    (host (.readReg 28)).pending = [.readReg 28] ∧
    (Reg.ofNumber 0 = some .cmd ∧ 2 ^ Reg.cmd.width ≤ (256 : DWord).toNat ∧
      (host (.writeReg 0 256)).pending = [.writeReg 0 256]) ∧
    (base.params.bufCap < 1024 + [(7 : Byte)].length ∧
      (host (.writeBuf .ibuf 1024 [7])).pending = [.writeBuf .ibuf 1024 [7]]) ∧
    (base.params.bufCap < 1023 + 2 ∧ (host (.readBuf .obuf 1023 2)).pending = [.readBuf .obuf 1023 2]) := by
  decide

theorem witness_HostBufferReads :
    1022 + 2 ≤ base.params.bufCap ∧ (host (.readBuf .ibuf 1022 2)).pending = [.readBuf .ibuf 1022 2] ∧
    (host (.readBuf .obuf 1022 2)).pending = [.readBuf .obuf 1022 2] ∧
    Mem.read (base.setOut disc).obuf 0 = some 0x7E ∧ 0 < (base.setOut disc).olen.toNat := by decide

theorem witness_RepeatedInputReadsAgree :
    ({ base with pending := [.readBuf .ibuf 1022 2, .readReg 1, .writeReg 3 1, .readBuf .ibuf 1020 3] } : State).pending =
      .readBuf .ibuf 1022 2 :: ([.readReg 1, .writeReg 3 1] ++ .readBuf .ibuf 1020 3 :: []) ∧
    1022 + 2 ≤ base.params.bufCap ∧ 1020 + 3 ≤ base.params.bufCap ∧
    ∀ e ∈ [Event.readReg 1, .writeReg 3 1], e.KeepsInput ∧ e.wf base.params.bufCap = true :=
  ⟨rfl, by decide, by decide, fun e he => by
    simp only [List.mem_cons, List.not_mem_nil, or_false] at he
    rcases he with rfl | rfl
    · exact ⟨trivial, by decide⟩
    · exact ⟨fun h => (by cases h), by decide⟩⟩

theorem witness_RegisterReadsHaveNoSideEffect : ∀ num ∈ [0, 27],
    num ≤ 27 ∧ (host (.readReg num)).pending = [.readReg num] := by decide

theorem witness_RegisterWritesStoreOrAreIgnored :
    (∀ num ∈ [3, 4, 5, 6, 8, 9, 10, 12, 1, 16, 17, 18, 21, 22, 23, 24],
      (host (.writeReg num 0xFF)).pending = [.writeReg num 0xFF] ∧ (0xFF : DWord).toNat < 2 ^ 8) ∧
    (∀ num ∈ [11, 14, 15, 19, 20, 25, 26, 27],
      (host (.writeReg num 0xFFFF)).pending = [.writeReg num 0xFFFF] ∧ (0xFFFF : DWord).toNat < 2 ^ 16) ∧
    (host (.writeReg 7 a1)).pending = [.writeReg 7 a1] := by decide

theorem witness_ErrlogWriteOneToClear :
    (host (.writeReg 2 ((0x0008 : Half).setWidth 64))).pending = [.writeReg 2 ((0x0008 : Half).setWidth 64)] := rfl

theorem witness_IlenWriteIsRangeChecked :
    (host (.writeReg 13 ((1024 : Half).setWidth 64))).pending = [.writeReg 13 ((1024 : Half).setWidth 64)] ∧
    (1024 : Half).toNat ≤ base.params.bufCap ∧ base.params.bufCap < (1025 : Half).toNat := by decide

theorem witness_HardwareReset : (host .hardReset).pending = [.hardReset] := rfl

theorem witness_OtoiCopiesOutToIn : base.OutIs [] ∧ (base.setOut disc).OutIs disc :=
  ⟨⟨rfl, fun a h => by cases h⟩, (wrote_setOut base disc).outIs (by decide)⟩

theorem witness_OsumGivesTheOuterChecksum : (input base []).InIs [] ∧ (input base disc).InIs disc :=
  ⟨input_inIs (by decide), input_inIs (by decide)⟩

theorem witness_OvfyVerifiesTheFirstFrame :
    ((input base disc).InIs disc ∧ FrameIn disc [] 0x00 0x04 [0x08, 0x01, 0x4E, 0x44] 0x64 [] ∧
      0x64 = specSum [0x08, 0x01, 0x4E, 0x44]) ∧
    (FrameIn ([0x01] ++ badDisc ++ [0x99]) [0x01] 0x00 0x04 [0x08, 0x01, 0x4E, 0x44] 0x65 [0x99] ∧
      0x65 ≠ specSum [0x08, 0x01, 0x4E, 0x44]) ∧
    0x7E ∉ ([] : Bytes) ∧ ShortFrameIn [0x7E, 0x00] :=
  ⟨⟨input_inIs (by decide), disc_frame, by decide⟩, ⟨badDisc_frame, by decide⟩, by decide, short_frames.1⟩

theorem witness_IcrcComputesTheInnerCrc :
    (input base [1, 2]).ilen.toNat < 3 ∧
    ((input base [1, 2, 4]).InIs [1, 2, 4] ∧ [(1 : Byte), 2, 4].length < 4) ∧
    ((input base [1, 2, 3]).InIs [1, 2, 3] ∧ 3 = (([1, 2, 3] : Bytes).getD 2 0).toNat) ∧
    ((input base [5, 6, 5, 9, 9]).InIs [5, 6, 5, 9, 9] ∧ 5 ≤ (([5, 6, 5, 9, 9] : Bytes).getD 2 0).toNat) :=
  ⟨by decide, ⟨input_inIs (by decide), by decide⟩, ⟨input_inIs (by decide), by decide⟩,
   ⟨input_inIs (by decide), by decide⟩⟩

/-- A machine with other bounds of the inner message: INNER_DATA_MAX and INNER_MIN. -/
def bounded (dataMax least : Nat) : State :=
  { base with params := { defaultParams with innerDataMax := dataMax, innerMin := least } }

/-- A machine whose BUF_CAP is `n`, so that the boundary of E_OVF is near. -/
def capped (n : Nat) : State := { base with params := { defaultParams with bufCap := n } }

theorem frame_length (s : State) (a : DWord) :
    (specFrame s.txtype s.txfid (specAddr a) s.txrsvd [0x56]).length = 16 := by simp [specFrame, specAddr]

/-- ENCU and ENCB: too long for the field; a frame of exactly BUF_CAP bytes; one byte more. -/
theorem witness_EncuBuildsTheUnicastFrame :
    65535 < ({ base with ilen := 65525 } : State).ilen.toNat + 11 ∧
    ((input (capped 16) [0x56]).InIs [0x56] ∧ [(0x56 : Byte)].length + 11 ≤ 65535 ∧
      (specSent (capped 16) (specFrame 0 0 (specAddr a1) 0 [0x56])).length = 16 ∧ (capped 16).params.bufCap = 16) ∧
    ((input (capped 15) [0x56]).InIs [0x56] ∧ (capped 15).params.bufCap < 16) :=
  ⟨by decide, ⟨input_inIs (by decide), by decide, by decide, rfl⟩, ⟨input_inIs (by decide), by decide⟩⟩

theorem witness_EncbBuildsTheBroadcastFrame :
    65535 < ({ base with ilen := 65525 } : State).ilen.toNat + 11 ∧
    ((input (capped 16) [0x56]).InIs [0x56] ∧ [(0x56 : Byte)].length + 11 ≤ 65535 ∧
      (specSent (capped 16) (specFrame 0 0 (specAddr 0xFFFF) 0 [0x56])).length = 16 ∧
      (capped 16).params.bufCap = 16) ∧
    ((input (capped 15) [0x56]).InIs [0x56] ∧ (capped 15).params.bufCap < 16) :=
  ⟨by decide, ⟨input_inIs (by decide), by decide, by decide, rfl⟩, ⟨input_inIs (by decide), by decide⟩⟩

theorem witness_EscfEscapesIn :
    (input (capped 3) [0x7E, 0x11]).InIs [0x7E, 0x11] ∧ (input (capped 2) [0x7E, 0x11]).InIs [0x7E, 0x11] ∧
    (specEscape (capped 3).params [0x7E, 0x11]).length ≤ (capped 3).params.bufCap ∧
    (capped 2).params.bufCap < (specEscape (capped 2).params [0x7E, 0x11]).length :=
  ⟨input_inIs (by decide), input_inIs (by decide), by decide, by decide⟩

theorem witness_DecfExtractsTheFirstFrame :
    ((input base [0x7E, 0x00, 0x02, 0x08, 0x01, 0xF6]).InIs [0x7E, 0x00, 0x02, 0x08, 0x01, 0xF6] ∧
      FrameIn [0x7E, 0x00, 0x02, 0x08, 0x01, 0xF6] [] 0x00 0x02 [0x08, 0x01] 0xF6 [] ∧
      base.cfg.getLsbD 1 = false) ∧
    (({ base with cfg := 0x02 } : State).cfg.getLsbD 1 = true ∧ 0x65 ≠ specSum [0x08, 0x01, 0x4E, 0x44] ∧
      FrameIn ([0x01] ++ badDisc ++ [0x99]) [0x01] 0x00 0x04 [0x08, 0x01, 0x4E, 0x44] 0x65 [0x99]) ∧
    0x7E ∉ ([0x01, 0x02, 0x03] : Bytes) ∧ ShortFrameIn [0x7E, 0x00, 0x01, 0x08, 0xF7] ∧
    ShortFrameIn [0x7E, 0x00, 0x04, 0x08, 0x01, 0x4E, 0x44] :=
  ⟨⟨input_inIs (by decide), least_frame, by decide⟩, ⟨by decide, by decide, badDisc_frame⟩, by decide,
   short_frames.2.1, short_frames.2.2⟩

theorem witness_IencBuildsAnInnerMessage :
    (247 < ({ base with ilen := 248 } : State).ilen.toNat ∧
      (bounded 4 8).params.innerDataMax < ({ bounded 4 8 with ilen := 5 } : State).ilen.toNat) ∧
    (input base []).InIs [] ∧ (input base (List.replicate 247 0xA5)).InIs (List.replicate 247 0xA5) ∧
    (List.replicate 247 (0xA5 : Byte)).length ≤ 247 ∧ base.params.innerDataMax = 247 :=
  ⟨by decide, input_inIs (by decide), input_inIs (replicate_length (by decide)),
   Nat.le_of_lt_succ (replicate_length (by decide)), rfl⟩

theorem witness_IencwBuildsAWriteRequest :
    12 < ({ base with ilen := 13 } : State).ilen.toNat ∧ (input base []).InIs [] ∧
    (input base pageBytes).InIs pageBytes ∧ pageBytes.length ≤ 12 :=
  ⟨by decide, input_inIs (by decide), input_inIs (by decide), by decide⟩

/-- IDEC: no length byte; 7 declared; 9 declared where INNER_MIN is 10; more declared than held; V-I15 and V-I11; V-I14 under STRICT. -/
theorem witness_IdecDecodesTheInnerMessage :
    (input base [0xFF, 0x01]).ilen.toNat < 3 ∧
    ((input base [0xFF, 0x01, 0x07]).InIs [0xFF, 0x01, 0x07] ∧ (([0xFF, 0x01, 0x07] : Bytes).getD 2 0).toNat < 8) ∧
    ((input (bounded 247 10) readReq).InIs readReq ∧ (readReq.getD 2 0).toNat < (bounded 247 10).params.innerMin) ∧
    ((input base (readReq.take 8)).InIs (readReq.take 8) ∧
      (readReq.take 8).length < ((readReq.take 8).getD 2 0).toNat) ∧
    ((input base [0xFF, 0x01, 0x08, 0xEC, 0x52, 0x57, 0x34, 0x12, 0x99]).InIs
        (0xFF :: 0x01 :: 0x08 :: 0xEC :: 0x52 :: 0x57 :: 0x34 :: 0x12 :: ([] ++ [0x99])) ∧
      (0x08 : Byte).toNat = 8 + ([] : Bytes).length ∧ base.params.innerMin ≤ (0x08 : Byte).toNat ∧
      (0xEC : Byte).toNat + 256 * (0x52 : Byte).toNat =
        (specCrc base.params [0xFF, 0x01, 0x08, 0xEC, 0x52, 0x57, 0x34, 0x12] 8).toNat) ∧
    ((input { base with cfg := 0x02 } (readReq.set 3 0x34)).InIs
        (0xFF :: 0x01 :: 0x09 :: 0x34 :: 0xE0 :: 0x52 :: 0x80 :: 0x00 :: ([0x0C] ++ [])) ∧
      ({ base with cfg := 0x02 } : State).cfg.getLsbD 1 = true ∧
      (0x34 : Byte).toNat + 256 * (0xE0 : Byte).toNat ≠
        (specCrc base.params (0xFF :: 0x01 :: 0x09 :: 0x34 :: 0xE0 :: 0x52 :: 0x80 :: 0x00 :: [0x0C]) 9).toNat) :=
  ⟨by decide, ⟨input_inIs (by decide), by decide⟩, ⟨input_inIs (by decide), by decide⟩,
   ⟨input_inIs (by decide), by decide⟩, ⟨input_inIs (by decide), by decide, by decide, by decide⟩,
   ⟨input_inIs (by decide), by decide, by decide⟩⟩

theorem witness_DemuxSplitsIn : (input base []).InIs [] ∧ (input base (disc ++ disc)).InIs (disc ++ disc) :=
  ⟨input_inIs (by decide), input_inIs (by decide)⟩

theorem witness_FpopMovesTheFirstCandidate :
    base.fq = [] ∧ ({ base with fq := [disc], fcnt := 1 } : State).fq = disc :: [] := ⟨rfl, rfl⟩

theorem witness_FailedCommandChangesOnlyStatusAndErrlog :
    ∃ t, exec .fpop base = .next t ∧ t.status &&& 0x0F ≠ 0 := ⟨_, rfl, by decide⟩

theorem witness_ErrorsPerCommand : ∃ t, exec .fpop base = .next t ∧ (t.status &&& 0x0F).toNat = 8 :=
  ⟨_, rfl, by decide⟩

theorem unwritten {n : Half} (h : 0 < n.toNat) : ({ base with ilen := n } : State).InUnwritten := ⟨0, h, rfl⟩

/-- Each group of commands at the edge of its condition on ILEN. -/
theorem witness_UninitialisedInputFaults :
    ({ base with ilen := 1 } : State).InUnwritten ∧
    ({ base with ilen := 65524 } : State).InUnwritten ∧ (65524 : Half).toNat + 11 ≤ 65535 ∧
    ({ base with ilen := 3 } : State).InUnwritten ∧ 3 ≤ (3 : Half).toNat ∧
    ({ base with ilen := 247 } : State).InUnwritten ∧ (247 : Half).toNat ≤ 247 ∧
    (247 : Half).toNat ≤ base.params.innerDataMax ∧ ({ base with ilen := 12 } : State).InUnwritten ∧ (12 : Half).toNat ≤ 12 :=
  ⟨unwritten (by decide), unwritten (by decide), by simp, unwritten (by decide), by decide, unwritten (by decide),
   by decide, by decide, unwritten (by decide), by decide⟩

theorem witness_StatusOfEveryCommand : ∃ t, exec .nop base = .next t ∧ t.status.getLsbD 7 = false :=
  ⟨_, rfl, by decide⟩

theorem witness_ErrlogIsSticky : ∃ t, Instr.fpop ≠ .srst ∧ exec .fpop base = .next t := ⟨_, by decide, rfl⟩

theorem witness_OnlyListedCommandsWrite : ∃ t, exec .demux (input base []) = .next t ∧ t.status &&& 0x0F = 0 :=
  ⟨_, rfl, by decide⟩

theorem witness_StepKeepsTheInvariant : ∃ t, (input base disc).Inv ∧ step (input base disc) = .next t :=
  ⟨_, input_inv (by decide), rfl⟩

theorem witness_StepKeepsTheParameters : ∃ t, step (host .hardReset) = .next t := ⟨_, rfl⟩

theorem witness_OuterFrameRoundTrip :
    ((input base []).Inv ∧ (input base []).InIs [] ∧ (input base []).cfg.getLsbD 0 = false) ∧
    ((input base (List.replicate 1009 0x7E)).Inv ∧
      (input base (List.replicate 1009 0x7E)).InIs (List.replicate 1009 0x7E) ∧
      (List.replicate 1009 (0x7E : Byte)).length + 15 ≤ base.params.bufCap) :=
  ⟨⟨input_inv (by decide), input_inIs (by decide), by decide⟩,
   ⟨input_inv (Nat.le_of_lt_succ (replicate_length (by decide))), input_inIs (replicate_length (by decide)),
    by rw [List.length_replicate]; decide⟩⟩

theorem witness_InnerMessageRoundTrip :
    (input base (List.replicate 247 0xA5)).InIs (List.replicate 247 0xA5) ∧ (input base pageBytes).InIs pageBytes ∧
    pageBytes.length ≤ 12 ∧ base.params.innerDataMax = 247 ∧ base.params.innerMin ≤ 8 :=
  ⟨input_inIs (replicate_length (by decide)), input_inIs (by decide), by decide, rfl, by decide⟩

theorem witness_RelayedReadRequest : (input base []).Inv ∧ (input base []).cfg.getLsbD 0 = false :=
  ⟨input_inv (by decide), by decide⟩

theorem witness_DemuxRecoversConcatenatedFrames :
    (input base ([disc, [0x7E, 0x00, 0x10, 0x88]] : List Bytes).flatten).InIs
      ([disc, [0x7E, 0x00, 0x10, 0x88]] : List Bytes).flatten ∧
    ∀ f ∈ ([disc, [0x7E, 0x00, 0x10, 0x88]] : List Bytes), f.head? = some 0x7E ∧ 0x7E ∉ f.tail :=
  ⟨input_inIs (by decide), by decide⟩

theorem witness_FpopGivesCandidatesInOrder :
    ({ base with fq := [[1], disc, [2]] } : State).fq = [[1]] ++ disc :: [[2]] ∧ disc.length < 65536 :=
  ⟨rfl, by decide⟩

theorem witness_BuiltFramesSumToFF : ∃ t, Instr.encd ∈ [Instr.encu, .encb, .encd] ∧ (input base []).Inv ∧
    (input base []).cfg.getLsbD 0 = false ∧ exec .encd (input base []) = .next t ∧ t.status &&& 0x0F = 0 ∧
    t.olen.toNat = disc.length ∧ ∀ a, a < disc.length → t.obuf.read a = disc[a]? :=
  ⟨_, by decide, input_inv (by decide), by decide, rfl, by decide, by decide, by decide⟩

theorem witness_EscapedFrameHasNoInnerStart : ∃ t, (input base [0x7E, 0x11]).Inv ∧
    (input base [0x7E, 0x11]).InIs [0x7E, 0x11] ∧ base.params.escByte = 0x7D ∧ base.params.escXor = 0x20 ∧
    exec .escf (input base [0x7E, 0x11]) = .next t ∧ t.status &&& 0x0F = 0 ∧ t.olen.toNat = 3 ∧
    ∀ a, a < 3 → t.obuf.read a = [(0x7E : Byte), 0x7D, 0x31][a]? :=
  ⟨_, input_inv (by decide), input_inIs (by decide), rfl, rfl, rfl, by decide, by decide, by decide⟩

/-- V-C13 and V-C14. -/
theorem witness_IcrcIgnoresTheCrcField : ∃ t t',
    (input base readReq).InIs readReq ∧
    (input base (([0xFF, 0x01, 0x09, 0xAA, 0x55] : Bytes) ++ readReq.drop 5 ++ [0xDE])).InIs
      (([0xFF, 0x01, 0x09, 0xAA, 0x55] : Bytes) ++ readReq.drop 5 ++ [0xDE]) ∧
    (∀ k, k < 9 → k ≠ 3 → k ≠ 4 → readReq.getD k 0 =
      (([0xFF, 0x01, 0x09, 0xAA, 0x55] : Bytes) ++ readReq.drop 5 ++ [0xDE]).getD k 0) ∧
    exec .icrc (input base readReq) = .next t ∧ t.status &&& 0x0F = 0 ∧
    exec .icrc (input base (([0xFF, 0x01, 0x09, 0xAA, 0x55] : Bytes) ++ readReq.drop 5 ++ [0xDE])) = .next t' ∧
    t'.status &&& 0x0F = 0 :=
  ⟨_, _, input_inIs (by decide), input_inIs (by decide), by decide, rfl, by decide, rfl, by decide⟩

theorem witness_OneChangedByteChangesTheCandidateCrc : ∃ t t', base.params.crc = crcCandidate ∧
    (input base readReq).InIs readReq ∧ (input base (readReq.set 8 0x0D)).InIs (readReq.set 8 0x0D) ∧
    8 < (readReq.getD 2 0).toNat ∧ readReq.getD 8 0 ≠ 0x0D ∧
    exec .icrc (input base readReq) = .next t ∧ t.status &&& 0x0F = 0 ∧
    exec .icrc (input base (readReq.set 8 0x0D)) = .next t' ∧ t'.status &&& 0x0F = 0 :=
  ⟨_, _, rfl, input_inIs (by decide), input_inIs (by decide), by decide, by decide, rfl, by decide, rfl, by decide⟩

/-- No frame; a frame one byte too short; the last page again; with the last page still to come. -/
theorem witness_ReadSessionDiscards :
    (readStart 1).phase = .idle ∧ ({ readStart 1 with pages := 10 } : ReadSession).pages < hostParams.readMaxPages ∧
    (∀ e, (none : Option Bytes) = some e → e.length < hostParams.extractedMin) ∧
    (List.replicate 16 (0x7E : Byte)).length < hostParams.extractedMin ∧
    ({ readStart 1 with last := some disc } : ReadSession).last = some disc :=
  ⟨rfl, by decide, fun e h => (by cases h), by decide, rfl⟩

/-- The first page, and the last one. -/
theorem witness_ReadSessionAcceptsANovelPage :
    (readStart 1).phase = .idle ∧ (readStart 1).pages < hostParams.readMaxPages ∧
    ({ readStart 1 with phase := .requesting, pages := 10 } : ReadSession).pages + 1 = hostParams.readMaxPages ∧
    hostParams.extractedMin ≤ (List.replicate 17 (0x7E : Byte)).length ∧ (readStart 1).last ≠ some pageFrame := by
  decide

/-- No mismatch, and as many as the bound, before the match. -/
theorem witness_WriteSessionRetriesThenAdvances :
    (writeStart 1 pageBytes).phase = .idle ∧ (writeStart 1 pageBytes).retries = 0 ∧
    (writeStart 1 pageBytes).remaining ≠ [] ∧ hostParams.writeRetryMax < 2 ^ 32 ∧
    [some disc].length ≤ hostParams.writeRetryMax ∧ ([] : List (Option Bytes)).length ≤ hostParams.writeRetryMax ∧
    (∀ r ∈ [some disc], r.map pageData ≠ some (writeChunk hostParams (writeStart 1 pageBytes))) ∧
    pageData pageFrame = writeChunk hostParams (writeStart 1 pageBytes) := by decide

/-- One mismatch, and one more than the bound. -/
theorem witness_WriteSessionStopsAtTheRetryBound :
    (writeStart 1 pageBytes).phase = .idle ∧ (writeStart 1 pageBytes).retries = 0 ∧
    (writeStart 1 pageBytes).remaining ≠ [] ∧ hostParams.abandon = .abort ∧ hostParams.writeRetryMax < 2 ^ 32 ∧
    (∀ r ∈ [none] ++ [some disc], r.map pageData ≠ some (writeChunk hostParams (writeStart 1 pageBytes))) ∧
    ([] : List (Option Bytes)).length < hostParams.writeRetryMax ∧
    [(none : Option Bytes)].length = hostParams.writeRetryMax := by decide

end Sys2Proof.Tests
end

section
/-! PROOFS. The invariant of 10_state.md (R23 to R25, R29, R30, R33, R35 to R37): how each operation keeps it,
then every command, every host access and every step; and the reset state (R44, 70_reset_and_hazards.md R310). -/

namespace Sys2Proof.Machine

/-! ## What the invariant depends on -/

/-- The fields `State.Inv` speaks of. -/
def State.invFields (s : State) :
    Params × Mem × Mem × Half × Half × Half × List Bytes × Byte × Half × Byte :=
  (s.params, s.ibuf, s.obuf, s.ilen, s.olen, s.fcnt, s.fq, s.status, s.errlog, s.cfg)

/-- A state that differs from one with the invariant in other fields only has it too. -/
theorem State.Inv.of_invFields {s t : State} (h : s.Inv) (e : t.invFields = s.invFields) : t.Inv := by
  simp only [State.invFields, Prod.mk.injEq] at e
  obtain ⟨hparams, hibuf, hobuf, hilen, holen, hfcnt, hfq, hstatus, herrlog, hcfg⟩ := e
  exact {
    cap := by rw [hparams]; exact h.cap
    ibuf := by rw [hibuf, hparams]; exact h.ibuf
    obuf := by rw [hobuf, hparams]; exact h.obuf
    ilen := by rw [hilen, hparams]; exact h.ilen
    olen := by rw [holen, hobuf, hparams]; exact h.olen
    fcnt := by rw [hfcnt, hfq]; exact h.fcnt
    fq := by rw [hfq, hparams]; exact h.fq
    status := by rw [hstatus, hfcnt]; exact h.status
    errlog := by rw [herrlog]; exact h.errlog
    cfg := by rw [hcfg]; exact h.cfg }

/-! ## Lengths -/

/-- Every length up to BUF_CAP fits a 16-bit register. -/
theorem State.Inv.toNat_ofNat {s : State} (h : s.Inv) {n : Nat} (hn : n ≤ s.params.bufCap) :
    (BitVec.ofNat 16 n).toNat = n := by
  have := h.cap
  rw [BitVec.toNat_ofNat, Nat.mod_eq_of_lt (by omega)]

/-- IN is at most BUF_CAP bytes long (R29). -/
theorem State.Inv.inIs_length {s : State} (h : s.Inv) {b : Bytes} (hb : s.InIs b) :
    b.length ≤ s.params.bufCap := hb.1 ▸ h.ilen

/-- A queue of non-empty candidates has at most as many candidates as bytes. -/
theorem length_le_flatten_length {q : List Bytes} (h : ∀ f ∈ q, f ≠ []) : q.length ≤ q.flatten.length := by
  rw [List.length_flatten, ← List.length_map (as := q) List.length]
  refine List.length_le_sum_of_one_le _ fun n hn => ?_
  obtain ⟨f, hf, rfl⟩ := List.mem_map.mp hn
  exact List.length_pos_iff.mpr (h f hf)

/-! ## Buffers -/

/-- A write inside a bound keeps a buffer in canonical form and inside it. -/
theorem Mem.bounded_writeBytes {m : Mem} {cap addr : Nat} {bs : Bytes}
    (h : m.wf ∧ ∀ c ∈ m, c.1 < cap) (hl : addr + bs.length ≤ cap) :
    (m.writeBytes addr bs).wf ∧ ∀ c ∈ m.writeBytes addr bs, c.1 < cap := by
  refine ⟨Mem.wf_writeBytes _ _ h.1, fun c hc => ?_⟩
  rcases Mem.keys_writeBytes hc with hnew | hold
  · omega
  · exact h.2 c hold

theorem State.Inv.writeIbuf {s : State} (h : s.Inv) {addr : Nat} {bs : Bytes}
    (hl : addr + bs.length ≤ s.params.bufCap) : { s with ibuf := s.ibuf.writeBytes addr bs }.Inv :=
  { h with ibuf := Mem.bounded_writeBytes h.ibuf hl }

theorem State.Inv.setIlen {s : State} (h : s.Inv) {v : Half} (hv : v.toNat ≤ s.params.bufCap) :
    { s with ilen := v }.Inv :=
  { h with ilen := hv }

/-- `OUT <- f` keeps the invariant when `f` fits OBUF: it writes every byte below the new OLEN. -/
theorem State.Inv.setOut {s : State} (h : s.Inv) {f : Bytes} (hf : f.length ≤ s.params.bufCap) :
    (s.setOut f).Inv :=
  { h with
    obuf := Mem.bounded_writeBytes h.obuf ((Nat.zero_add _).trans_le hf)
    olen := by
      rw [State.setOut_olen, h.toNat_ofNat hf]
      refine ⟨hf, fun a ha => ?_⟩
      rw [(wrote_setOut s f).1.holds a ha, List.getElem?_eq_getElem ha]
      rfl }

/-! ## ERRLOG -/

/-- No error's bit is a reserved bit of ERRLOG (R24). -/
theorem Err.logBit_and_reserved (e : Err) : e.logBit &&& 0xF801 = 0 := by cases e <;> decide

theorem State.Inv.setErrlogBits {s : State} (h : s.Inv) {x : Half} (hx : x &&& 0xF801 = 0) :
    { s with errlog := s.errlog ||| x }.Inv :=
  { h with
    errlog := by
      show (s.errlog ||| x) &&& 0xF801 = 0
      rw [BitVec.and_or_distrib_right, h.errlog, hx, BitVec.or_self] }

theorem State.Inv.clearErrlogBits {s : State} (h : s.Inv) (x : Half) :
    { s with errlog := s.errlog &&& x }.Inv :=
  { h with
    errlog := by
      show s.errlog &&& x &&& 0xF801 = 0
      rw [BitVec.and_assoc, BitVec.and_comm x, ← BitVec.and_assoc, h.errlog]
      exact BitVec.zero_and }

/-! ## The end of a command -/

/-- A STATUS byte built from an error code up to 9 and the FQNE of the state is a legal one (R23). -/
theorem State.Inv.setStatus {s : State} (h : s.Inv) {err : BitVec 4} (herr : err.toNat ≤ 9) (ck crc : Bool) :
    { s with status := statusByte err ck crc (fqNonEmpty s) }.Inv := by
  obtain ⟨-, -, -, hfqne, hbit7, hcode⟩ := statusByte_fields err ck crc (fqNonEmpty s)
  exact { h with status := ⟨by rw [hcode]; exact herr, hbit7, hfqne⟩ }

theorem State.Inv.finish {s : State} {ck crc : Bool} (h : s.Inv) : (s.finish ck crc).Inv :=
  h.setStatus (by decide) ck crc

/-- A command that ends well in other fields than those of the invariant keeps it. -/
theorem State.Inv.finish_of_invFields {s u : State} {ck crc : Bool} (h : s.Inv)
    (e : u.invFields = s.invFields) : (u.finish ck crc).Inv := (h.of_invFields e).finish

theorem State.Inv.raise {s : State} (h : s.Inv) (e : Err) : (s.raise e).Inv :=
  (h.setStatus (by cases e <;> decide) false false).setErrlogBits e.logBit_and_reserved

/-- FQ and FCNT change together, and STATUS.FQNE follows at the end of the command (R33, R37). -/
theorem State.Inv.setQueue_finish {s : State} {q : List Bytes} {n : Half} {ck crc : Bool} (h : s.Inv)
    (hn : n.toNat = q.length) (hne : ∀ f ∈ q, f ≠ []) (hl : q.flatten.length ≤ s.params.bufCap) :
    (State.finish { s with fq := q, fcnt := n } ck crc).Inv := by
  obtain ⟨-, -, -, hfqne, hbit7, hcode⟩ := statusByte_fields 0 ck crc (decide (0 < n.toNat))
  exact { h with
    fcnt := hn
    fq := ⟨hne, hl⟩
    status := ⟨(congrArg BitVec.toNat hcode).trans_le (by decide), hbit7, hfqne⟩ }

/-! ## Reset -/

/-- Hardware reset with a legal BUF_CAP gives the invariant (70_reset_and_hazards.md R310). -/
theorem State.powerOn_inv {p : Params} (hp : 540 ≤ p.bufCap ∧ p.bufCap ≤ 4096) : (State.powerOn p).Inv where
  cap := hp
  ibuf := ⟨List.Pairwise.nil, List.forall_mem_nil _⟩
  obuf := ⟨List.Pairwise.nil, List.forall_mem_nil _⟩
  ilen := Nat.zero_le _
  olen := ⟨Nat.zero_le _, fun a ha => absurd ha (Nat.not_lt_zero a)⟩
  fcnt := rfl
  fq := ⟨List.forall_mem_nil _, Nat.zero_le _⟩
  status := (by decide : (statusErr 0).toNat ≤ 9 ∧ (0 : Byte).getLsbD 7 = false ∧
    statusFqne 0 = decide (0 < (0 : Half).toNat))
  errlog := BitVec.zero_and
  cfg := BitVec.zero_and

theorem State.Inv.reinit {s : State} (h : s.Inv) (c : Byte) : (s.reinit c).Inv :=
  (State.powerOn_inv h.cap).of_invFields rfl

theorem State.powerOn_atReset (p : Params) : (State.powerOn p).AtReset p := by
  simp [State.AtReset, State.powerOn, Mem.read]

/-! ## Commands -/

/-- A command keeps the invariant when its success does: `raise` always does. -/
theorem EndsWith.inv {s t : State} {es : List Err} {P : State → Prop} (h : EndsWith s t es P) (hs : s.Inv)
    (hP : P t → t.Inv) : t.Inv := by
  obtain ⟨e, -, rfl⟩ | ht := h
  · exact hs.raise e
  · exact hP ht

theorem outRead_length (s : State) (addr n : Nat) : (outRead s addr n).length = n := by simp [outRead]

/-- The common end of IENC, IENCR and IENCW: the message of `8 + k` bytes fits OBUF, since 255 < 540. -/
theorem State.Inv.sendInner {s : State} (h : s.Inv) (c : Byte) {data : Bytes} (hd : data.length ≤ 247) :
    (sendInner c data s).Inv := by
  have := h.cap
  rw [sendInner_eq hd]
  have hfit : (specInner s.bdest s.bsrc c s.boff (specInnerCrc s.params s.bdest s.bsrc c s.boff data) data).length ≤
      s.params.bufCap := by rw [specInner_length]; omega
  exact (h.setOut hfit).finish_of_invFields rfl

theorem sendAddressed_keeps_inv {a : Bytes} {s t : State} (hs : s.Inv) (h : sendAddressed a s = .next t) :
    t.Inv :=
  (sendAddressed_next h).inv hs fun ⟨_, _, _, _, _, hfit, _, _, ht⟩ => by
    rw [ht]; exact (hs.setOut hfit).finish_of_invFields rfl

theorem execClr_keeps_inv {s t : State} (hs : s.Inv) (h : execClr s = .next t) : t.Inv := by
  cases h
  have hempty : { s with ilen := 0, olen := 0 }.Inv :=
    { hs with ilen := Nat.zero_le _, olen := ⟨Nat.zero_le _, fun a ha => absurd ha (Nat.not_lt_zero a)⟩ }
  exact hempty.setQueue_finish rfl (by simp) (Nat.zero_le _)

/-- OTOI moves OLEN bytes, at most BUF_CAP, to IBUF. -/
theorem execOtoi_keeps_inv {s t : State} (hs : s.Inv) (h : execOtoi s = .next t) : t.Inv := by
  cases h
  have hcopied := hs.writeIbuf (addr := 0) (bs := outRead s 0 s.olen.toNat)
    (by rw [outRead_length, Nat.zero_add]; exact hs.olen.1)
  exact (hcopied.setIlen hs.olen.1).finish

/-- DEMUX: the candidates are non-empty and are together the bytes of IN, so FCNT can hold their number. -/
theorem execDemux_keeps_inv {s t : State} (hs : s.Inv) (h : execDemux s = .next t) : t.Inv := by
  obtain ⟨b, hb, rfl⟩ := execDemux_next h
  have hne : ∀ f ∈ split b, f ≠ [] := splitFrom_nonempty b []
  have hfit : (split b).flatten.length ≤ s.params.bufCap := by
    rw [split, splitFrom_flatten, List.nil_append]; exact hs.inIs_length hb
  exact hs.setQueue_finish (hs.toNat_ofNat ((length_le_flatten_length hne).trans hfit)) hne hfit

/-- FPOP: the first candidate fits OBUF because all of FQ does, and FCNT is positive before it is lowered. -/
theorem execFpop_keeps_inv {s t : State} (hs : s.Inv) (h : execFpop s = .next t) : t.Inv := by
  obtain ⟨-, rfl⟩ | ⟨f, q, hq, rfl⟩ := execFpop_next h
  · exact hs.raise _
  · obtain ⟨hne, hfit⟩ := hs.fq
    have hcount := hs.fcnt
    rw [hq, List.length_cons] at hcount
    rw [hq, List.flatten_cons, List.length_append] at hfit
    have hpred : (s.fcnt - 1).toNat = q.length := by bv_omega
    have hqne : ∀ g ∈ q, g ≠ [] := fun g hg => hne g (by rw [hq]; exact List.mem_cons_of_mem f hg)
    have hqfit : q.flatten.length ≤ s.params.bufCap := by omega
    have hout : (s.setOut f).Inv := hs.setOut (by omega)
    exact hout.setQueue_finish hpred hqne hqfit

/-- Every command that answers a next state keeps the invariant. -/
theorem exec_keeps_inv {i : Instr} {s t : State} (hs : s.Inv) (h : exec i s = .next t) : t.Inv := by
  cases i with
  | nop => cases h; exact hs.finish
  | clr => exact execClr_keeps_inv hs h
  | otoi => exact execOtoi_keeps_inv hs h
  | srst => cases h; exact hs.reinit _
  | osum =>
    obtain ⟨b, -, rfl⟩ := execOsum_next h
    exact hs.finish_of_invFields rfl
  | ovfy =>
    refine (execOvfy_next h).inv hs ?_
    rintro ⟨c, l, p, rfl⟩
    exact hs.finish_of_invFields rfl
  | icrc =>
    refine (execIcrc_next h).inv hs ?_
    rintro ⟨b, -, -, -, dc, ok, rfl⟩
    exact hs.finish_of_invFields rfl
  | encu => exact sendAddressed_keeps_inv hs h
  | encb => exact sendAddressed_keeps_inv hs h
  | encd =>
    cases h
    have := hs.cap
    have hfit : (transmitForm s discFrame).length ≤ s.params.bufCap := by
      rw [transmitForm_eq, specSent_discFrame, show discFrame.length = 8 from rfl]; omega
    exact (hs.setOut hfit).finish_of_invFields rfl
  | escf =>
    refine (execEscf_next h).inv hs ?_
    rintro ⟨b, -, hfit, rfl⟩
    exact (hs.setOut hfit).finish
  | decf =>
    refine (execDecf_next h).inv hs ?_
    rintro ⟨b, f, hb, hf, l, ty, fid, c, p, ok, rfl⟩
    exact (hs.setOut (hf.trans (hs.inIs_length hb))).finish_of_invFields rfl
  | ienc =>
    refine (execIenc_next h).inv hs ?_
    rintro ⟨b, -, hb, rfl⟩
    exact hs.sendInner _ hb
  | iencr => cases h; exact hs.sendInner _ (by simp)
  | iencw =>
    refine (execIencw_next h).inv hs ?_
    rintro ⟨b, -, hb, rfl⟩
    exact hs.sendInner _ (by omega)
  | idec =>
    refine (execIdec_next h).inv hs ?_
    rintro ⟨b, f, hb, hf, d, sr, n, st, crc, c, off, ok, rfl⟩
    exact (hs.setOut (hf.trans (hs.inIs_length hb))).finish_of_invFields rfl
  | demux => exact execDemux_keeps_inv hs h
  | fpop => exact execFpop_keeps_inv hs h

/-! ## Host accesses and steps -/

/-- A write to ILEN stores a legal length or sets ILENBAD (R29). -/
theorem State.Inv.writeIlen {s : State} (h : s.Inv) (v : Half) : (writeIlen s v).Inv := by
  unfold Machine.writeIlen
  split
  · exact h.setErrlogBits (by decide)
  · exact h.setIlen (by omega)

/-- A host write to a register keeps the invariant: CFG, ERRLOG and ILEN guard their own bits (R24, R25, R29). -/
theorem State.Inv.storeReg {s : State} (h : s.Inv) (r : Reg) (v : DWord) : (storeReg s r v).Inv := by
  match r with
  | .cfg =>
    refine { h with cfg := ?_ }
    show v.setWidth 8 &&& 0x03 &&& 0xFC = 0
    rw [BitVec.and_assoc]
    exact BitVec.and_zero
  | .errlog => exact h.clearErrlogBits _
  | .ilen => exact h.writeIlen _
  | .cmd | .txtype | .txfid | .txrsvd | .addr | .bdest | .bsrc | .bcmd | .boff | .breq =>
    exact h.of_invFields rfl
  | .status | .olen | .rlen | .rtype | .rfid | .rsum | .rpos | .rcrc | .blen | .ddest | .dsrc | .dcmd
  | .doff | .dcrc | .fcnt => exact h

theorem runCommand_keeps_inv {s t : State} (hs : s.Inv) (h : runCommand s = .next t) : t.Inv := by
  obtain ⟨i, hi⟩ | rfl := runCommand_next h
  · exact exec_keeps_inv hs hi
  · exact hs.raise _

theorem hostWriteReg_keeps_inv {r : Reg} {v : DWord} {s t : State} (hs : s.Inv)
    (h : hostWriteReg r v s = .next t) : t.Inv := by
  unfold hostWriteReg at h
  split at h
  · exact runCommand_keeps_inv (hs.storeReg _ _) h
  · cases h; exact hs.storeReg _ _

/-- Settles O41: by the kind of event, and for a write to CMD by the command. -/
theorem stepKeepsTheInvariant : Obligations.StepKeepsTheInvariant := by
  intro s t hs h
  obtain ⟨-, rfl⟩ | ⟨e, rest, -, hevent⟩ := step_next h
  · exact hs
  · have htaken : { s with pending := rest }.Inv := hs.of_invFields rfl
    obtain ⟨num, r, v, -, -, -, hwrite⟩ | ⟨a, rfl⟩ | ⟨a, n, rfl⟩ | ⟨a, bs, hl, rfl⟩ | rfl | rfl := hevent
    · exact hostWriteReg_keeps_inv htaken hwrite
    · exact hs.of_invFields rfl
    · exact hs.of_invFields rfl
    · exact htaken.writeIbuf hl
    · exact htaken
    · exact htaken.reinit _

/-- Settles O42: BUF_CAP is 1024 at reset. -/
theorem resetMeetsTheInvariant : Obligations.ResetMeetsTheInvariant :=
  State.powerOn_inv (by decide)

/-- Settles O15: the registers as after any hardware reset, the parameters as R8 gives them. -/
theorem resetValues : Obligations.ResetValues :=
  ⟨rfl, State.powerOn_atReset defaultParams, rfl, rfl, rfl, rfl, rfl, rfl, rfl, rfl, rfl, rfl, rfl⟩

end Sys2Proof.Machine
end

section
/-! PROOFS. The host's accesses (10_state.md R21 to R38, 20_memory.md R65 to R71, 70_reset_and_hazards.md R310): which
are refused, what a register or buffer access reads, stores and leaves, hardware reset, and the start of a command. -/

namespace Sys2Proof.Machine

/-! ## The registers by number -/

theorem Reg.ofNumber_of_le {num : Nat} (h : num ≤ 27) :
    Reg.ofNumber num = some (allRegs[num]'(Nat.lt_succ_of_le h)) :=
  List.getElem?_eq_getElem _

theorem Reg.ofNumber_eq_none {num : Nat} (h : 27 < num) : Reg.ofNumber num = none :=
  List.getElem?_eq_none h

theorem Reg.number_of_ofNumber {num : Nat} {r : Reg} (h : Reg.ofNumber num = some r) : r.number = num := by
  have hlt : num < 28 := (List.getElem?_eq_some_iff.mp h).1
  have key : ∀ k < 28, ∀ r ∈ Reg.ofNumber k, r.number = k := by decide
  exact key num hlt r h

/-- The values of R21's list are the registers read one by one. -/
theorem registerValues_eq_map (s : State) : registerValues s = allRegs.map (readReg s) := rfl

theorem registerValues_getD {num : Nat} (h : num ≤ 27) (s : State) :
    (registerValues s).getD num 0 = readReg s (allRegs[num]'(Nat.lt_succ_of_le h)) := by
  rw [registerValues_eq_map, List.getD_eq_getElem?_getD, List.getElem?_map,
    List.getElem?_eq_getElem (Nat.lt_succ_of_le h)]
  rfl

/-- The read-only registers of R21. -/
def Reg.readOnly : Reg → Bool
  | .status | .olen | .rlen | .rtype | .rfid | .rsum | .rpos | .rcrc | .blen | .ddest | .dsrc | .dcmd
  | .doff | .dcrc | .fcnt => true
  | .cmd | .errlog | .cfg | .txtype | .txfid | .txrsvd | .addr | .bdest | .bsrc | .bcmd | .boff | .breq
  | .ilen => false

/-! ## Which accesses are refused -/

theorem regProblem_eq_none_iff {num : Nat} {v : DWord} :
    regProblem num v = none ↔ ∃ r, Reg.ofNumber num = some r ∧ v.toNat < 2 ^ r.width := by
  unfold regProblem
  cases Reg.ofNumber num <;> simp

theorem bufProblem_eq_none_iff {cap addr n : Nat} {sp : Space} :
    bufProblem cap sp addr n = none ↔ addr + n ≤ cap := by simp [bufProblem]

theorem regProblem_noSuchRegister {num : Nat} (h : 27 < num) (v : DWord) :
    regProblem num v = some (.noSuchRegister num) := by
  simp only [regProblem, Reg.ofNumber_eq_none h]

theorem regProblem_valueTooWide {num : Nat} {r : Reg} {v : DWord} (hr : Reg.ofNumber num = some r)
    (hv : 2 ^ r.width ≤ v.toNat) : regProblem num v = some (.valueTooWide num) := by
  simp only [regProblem, hr, if_neg (Nat.not_lt.mpr hv)]

theorem bufProblem_outside {cap addr n : Nat} (h : cap < addr + n) (sp : Space) :
    bufProblem cap sp addr n = some (.outsideBuffer sp addr n) := if_neg (Nat.not_le.mpr h)

/-- Settles O8: each of these events has its problem, and a step refuses it. -/
theorem accessesOutsideTheSpecAreRefused : Obligations.AccessesOutsideTheSpecAreRefused := by
  intro s rest
  refine ⟨?_, ?_, ?_, ?_, ?_⟩
  · intro num v hnum hp
    exact step_refused hp (regProblem_noSuchRegister hnum v)
  · intro num hnum hp
    exact step_refused hp (regProblem_noSuchRegister hnum 0)
  · intro num r v hr hv hp
    exact step_refused hp (regProblem_valueTooWide hr hv)
  · intro sp a bs hout hp
    exact step_refused hp (bufProblem_outside hout sp)
  · intro sp a n hout hp
    exact step_refused hp (bufProblem_outside hout sp)

/-! ## Buffer accesses -/

/-- Settles O7: IBUF takes the bytes, OBUF ignores them. -/
theorem hostBufferWrites : Obligations.HostBufferWrites := by
  intro s sp a bs rest hp hl
  cases sp with
  | ibuf => exact ⟨_, step_writeBuf hp hl, Mem.stored_writeBytes s.ibuf a bs, rfl⟩
  | obuf => exact ⟨_, step_writeBuf hp hl, rfl⟩

theorem inRead_length (s : State) (addr n : Nat) : (inRead s addr n).length = n := by simp [inRead]

theorem inRead_getElem? {n i : Nat} (h : i < n) (s : State) (addr : Nat) :
    (inRead s addr n)[i]? = some (inByte s (addr + i)) := by simp [inRead, h]

theorem outRead_getElem? {n i : Nat} (h : i < n) (s : State) (addr : Nat) :
    (outRead s addr n)[i]? = some (outByte s (addr + i) i) := by simp [outRead, h]

theorem inByte_of_read {s : State} {a : Nat} {b : Byte} (h : s.ibuf.read a = some b) : inByte s a = b := by
  simp [inByte, h]

theorem outByte_of_read {s : State} {a i : Nat} {b : Byte} (hl : a < s.olen.toNat)
    (h : s.obuf.read a = some b) : outByte s a i = b := by simp [outByte, hl, h]

/-- Settles O9: the answer is the buffer's bytes one by one, a held byte as it is held. -/
theorem hostBufferReads : Obligations.HostBufferReads := by
  intro s a n rest hl
  refine ⟨fun hp => ?_, fun hp => ?_⟩
  · refine ⟨inRead s a n, inRead_length s a n, fun i b hi hb => ?_, step_readBuf hp hl⟩
    rw [inRead_getElem? hi, inByte_of_read hb]
  · refine ⟨outRead s a n, outRead_length s a n, fun i b hi hout hb => ?_, step_readBuf hp hl⟩
    rw [outRead_getElem? hi, outByte_of_read hout hb]

/-! ## Register accesses -/

/-- Settles O10: a read answers one entry of R21's list. -/
theorem registerReadsHaveNoSideEffect : Obligations.RegisterReadsHaveNoSideEffect := by
  intro s num rest hnum hp
  rw [step_readReg hp (Reg.ofNumber_of_le hnum), ← registerValues_getD hnum]
  rfl

/-- A write to a register other than CMD stores and runs nothing (10_state.md R22). -/
theorem step_storeReg {s : State} {num : Nat} {r : Reg} {v : DWord} {rest : List Event}
    (hp : s.pending = .writeReg num v :: rest) (hr : Reg.ofNumber num = some r) (hv : v.toNat < 2 ^ r.width)
    (hcmd : r ≠ .cmd) : step s = .next (storeReg { s with pending := rest } r v) := by
  rw [step_writeReg hp hr hv, hostWriteReg, if_neg hcmd]

theorem storeReg_readOnly {r : Reg} (h : r.readOnly = true) (s : State) (v : DWord) : storeReg s r v = s :=
  match r, h with
  | .status, _ | .olen, _ | .rlen, _ | .rtype, _ | .rfid, _ | .rsum, _ | .rpos, _ | .rcrc, _ | .blen, _
  | .ddest, _ | .dsrc, _ | .dcmd, _ | .doff, _ | .dcrc, _ | .fcnt, _ => rfl

theorem Reg.ne_cmd_of_readOnly {r : Reg} (h : r.readOnly = true) : r ≠ .cmd := by
  rintro rfl
  cases h

/-- A write to a read-only register of R21 is ignored (10_state.md R34). -/
theorem step_write_readOnly {s : State} {num w : Nat} {v : DWord} {rest : List Event}
    (hp : s.pending = .writeReg num v :: rest)
    (hr : ∃ r ∈ allRegs, Reg.ofNumber num = some r ∧ r.width = w ∧ r.readOnly = true) (hv : v.toNat < 2 ^ w) :
    step s = .next { s with pending := rest } := by
  obtain ⟨r, -, hnum, rfl, hro⟩ := hr
  rw [step_storeReg hp hnum hv (Reg.ne_cmd_of_readOnly hro), storeReg_readOnly hro]

/-- Settles O11: register by register. -/
theorem registerWritesStoreOrAreIgnored : Obligations.RegisterWritesStoreOrAreIgnored := by
  intro s num v rest hp
  refine ⟨?_, ?_, ?_, ?_, ?_, ?_, ?_, ?_, ?_, ?_, ?_, ?_⟩
  · rintro rfl hv; exact step_storeReg (r := .cfg) hp rfl hv (by decide)
  · rintro rfl hv; exact step_storeReg (r := .txtype) hp rfl hv (by decide)
  · rintro rfl hv; exact step_storeReg (r := .txfid) hp rfl hv (by decide)
  · rintro rfl hv; exact step_storeReg (r := .txrsvd) hp rfl hv (by decide)
  · rintro rfl; exact step_storeReg (r := .addr) hp rfl v.isLt (by decide)
  · rintro rfl hv; exact step_storeReg (r := .bdest) hp rfl hv (by decide)
  · rintro rfl hv; exact step_storeReg (r := .bsrc) hp rfl hv (by decide)
  · rintro rfl hv; exact step_storeReg (r := .bcmd) hp rfl hv (by decide)
  · rintro rfl hv; exact step_storeReg (r := .boff) hp rfl hv (by decide)
  · rintro rfl hv; exact step_storeReg (r := .breq) hp rfl hv (by decide)
  · intro hnum hv
    have byteRegs : ∀ k ∈ [1, 16, 17, 18, 21, 22, 23, 24],
        ∃ r ∈ allRegs, Reg.ofNumber k = some r ∧ r.width = 8 ∧ r.readOnly = true := by decide
    exact step_write_readOnly hp (byteRegs num hnum) hv
  · intro hnum hv
    have halfRegs : ∀ k ∈ [14, 15, 19, 20, 25, 26, 27],
        ∃ r ∈ allRegs, Reg.ofNumber k = some r ∧ r.width = 16 ∧ r.readOnly = true := by decide
    exact step_write_readOnly hp (halfRegs num hnum) hv

/-- Bit by bit, `x & ~v` clears the bits of `v`. -/
theorem getLsbD_and_not {w : Nat} (x v : BitVec w) (k : Nat) :
    (x &&& ~~~v).getLsbD k = (x.getLsbD k && !v.getLsbD k) := by
  by_cases hk : k < w
  · simp [hk]
  · simp [BitVec.getLsbD_of_ge x k (Nat.not_lt.mp hk)]

/-- Settles O12: the write stores `ERRLOG & ~v`. -/
theorem errlogWriteOneToClear : Obligations.ErrlogWriteOneToClear := by
  intro s v rest hp
  have hstep := step_storeReg (r := .errlog) hp rfl (toNat_setWidth64 v) (by decide)
  rw [storeReg, setWidth_setWidth64 v (by decide)] at hstep
  exact ⟨_, hstep, rfl, getLsbD_and_not s.errlog v⟩

/-- Settles O13: the two branches of the range check. -/
theorem ilenWriteIsRangeChecked : Obligations.IlenWriteIsRangeChecked := by
  intro s v rest hp
  have hstep := step_storeReg (r := .ilen) hp rfl (toNat_setWidth64 v) (by decide)
  rw [storeReg, setWidth_setWidth64 v (by decide), writeIlen] at hstep
  refine ⟨fun hfits => ?_, fun hbig => ?_⟩
  · rw [hstep, if_neg (Nat.not_lt.mpr hfits)]
  · rw [hstep, if_pos hbig]
    rfl

/-- Settles O4: the write to CMD stores, and the decoder gives `i`. -/
theorem stepRunsTheDecodedCommand : Obligations.StepRunsTheDecodedCommand := by
  intro s v i rest hp hdecode
  simp only [step_cmd hp, runCommand, hdecode]

/-! ## Hardware reset -/

theorem State.reinit_atReset (s : State) (cmd : Byte) : (s.reinit cmd).AtReset s.params :=
  State.powerOn_atReset s.params

/-- Settles O14: the registers as after power-on with the same parameters. -/
theorem hardwareReset : Obligations.HardwareReset := by
  intro s rest hp
  exact ⟨_, step_hardReset hp, rfl, State.reinit_atReset _ _, rfl, rfl, rfl, rfl⟩

/-! ## Events that leave IBUF as it is -/

/-- `t` has the same of everything that a host read of IBUF in `s` depends on. -/
structure State.SameInput (s t : State) : Prop where
  /-- The bytes that were written. -/
  ibuf : t.ibuf = s.ibuf
  /-- The number of resets, which the unwritten bytes depend on (log entry 7). -/
  epoch : t.epoch = s.epoch
  /-- BUF_CAP, the bound of every buffer access (20_memory.md R65). -/
  params : t.params = s.params

theorem State.SameInput.trans {s t u : State} (h : s.SameInput t) (h' : t.SameInput u) : s.SameInput u :=
  ⟨h'.ibuf.trans h.ibuf, h'.epoch.trans h.epoch, h'.params.trans h.params⟩

theorem State.SameInput.inByte {s t : State} (h : s.SameInput t) (a : Nat) : inByte t a = inByte s a := by
  simp only [Machine.inByte, h.ibuf, h.epoch]

/-- A host read of IBUF answers its bytes and leaves it as it is. -/
theorem step_readInput {s : State} {a n : Nat} {rest : List Event}
    (hp : s.pending = .readBuf .ibuf a n :: rest) (hl : a + n ≤ s.params.bufCap) :
    ∃ t, step s = .next t ∧ t.answer = some (.bytes .ibuf a (inRead s a n)) ∧ t.pending = rest ∧
      s.SameInput t :=
  ⟨_, step_readBuf hp hl, rfl, rfl, ⟨rfl, rfl, rfl⟩⟩

/-- A write to ILEN changes ILEN or ERRLOG (10_state.md R29). -/
theorem writeIlen_cases (s : State) (v : Half) :
    writeIlen s v = { s with errlog := s.errlog ||| ilenBad } ∨ writeIlen s v = { s with ilen := v } := by
  unfold writeIlen
  split
  · exact .inl rfl
  · exact .inr rfl

/-- A register write, apart from the command a write to CMD runs, touches registers only. -/
theorem storeReg_sameInput (s : State) (r : Reg) (v : DWord) :
    s.SameInput (storeReg s r v) ∧ (storeReg s r v).pending = s.pending := by
  match r with
  | .ilen =>
    rw [storeReg]
    obtain h | h := writeIlen_cases s (v.setWidth 16)
    · rw [h]; exact ⟨⟨rfl, rfl, rfl⟩, rfl⟩
    · rw [h]; exact ⟨⟨rfl, rfl, rfl⟩, rfl⟩
  | .cmd | .errlog | .cfg | .txtype | .txfid | .txrsvd | .addr | .bdest | .bsrc | .bcmd | .boff | .breq
  | .status | .olen | .rlen | .rtype | .rfid | .rsum | .rpos | .rcrc | .blen | .ddest | .dsrc | .dcmd
  | .doff | .dcrc | .fcnt => exact ⟨⟨rfl, rfl, rfl⟩, rfl⟩

/-- A well-formed event that neither writes IBUF nor runs a command nor resets is taken and leaves IBUF. -/
theorem step_keepsInput {s : State} {e : Event} {rest : List Event} (hp : s.pending = e :: rest)
    (hkeeps : e.KeepsInput) (hwf : e.wf s.params.bufCap = true) :
    ∃ t, step s = .next t ∧ t.pending = rest ∧ s.SameInput t := by
  have hnone : e.problem s.params.bufCap = none := Option.isNone_iff_eq_none.mp hwf
  cases e with
  | writeReg num v =>
    obtain ⟨r, hr, hv⟩ := regProblem_eq_none_iff.mp hnone
    have hcmd : r ≠ .cmd := fun hc => hkeeps (by rw [← Reg.number_of_ofNumber hr, hc]; rfl)
    obtain ⟨hsame, hpending⟩ := storeReg_sameInput { s with pending := rest } r v
    exact ⟨_, step_storeReg hp hr hv hcmd, hpending, ⟨hsame.ibuf, hsame.epoch, hsame.params⟩⟩
  | readReg num =>
    obtain ⟨r, hr, -⟩ := regProblem_eq_none_iff.mp hnone
    exact ⟨_, step_readReg hp hr, rfl, ⟨rfl, rfl, rfl⟩⟩
  | writeBuf sp a bs =>
    obtain rfl : sp = .obuf := hkeeps
    exact ⟨_, step_writeBuf hp (bufProblem_eq_none_iff.mp hnone), rfl, ⟨rfl, rfl, rfl⟩⟩
  | readBuf sp a n =>
    have hl := bufProblem_eq_none_iff.mp hnone
    cases sp with
    | ibuf =>
      obtain ⟨t, hstep, -, hpending, hsame⟩ := step_readInput hp hl
      exact ⟨t, hstep, hpending, hsame⟩
    | obuf => exact ⟨_, step_readBuf hp hl, rfl, ⟨rfl, rfl, rfl⟩⟩
  | hardReset => exact hkeeps.elim

theorem stepTimes_succ {s t : State} (h : step s = .next t) (n : Nat) :
    stepTimes (n + 1) s = stepTimes n t := by simp only [stepTimes, h]

/-- A run of such events is taken whole, one step each, and leaves IBUF. -/
theorem stepTimes_keepsInput {es rest : List Event} {s : State} (hp : s.pending = es ++ rest)
    (hes : ∀ e ∈ es, e.KeepsInput ∧ e.wf s.params.bufCap = true) :
    ∃ t, (∀ n, stepTimes (es.length + n) s = stepTimes n t) ∧ t.pending = rest ∧ s.SameInput t := by
  induction es generalizing s with
  | nil => exact ⟨s, fun n => by rw [List.length_nil, Nat.zero_add], hp, ⟨rfl, rfl, rfl⟩⟩
  | cons e es ih =>
    obtain ⟨⟨hkeeps, hwf⟩, htail⟩ := List.forall_mem_cons.mp hes
    obtain ⟨t, hstep, hpending, hsame⟩ := step_keepsInput hp hkeeps hwf
    obtain ⟨u, hrun, hleft, hsame'⟩ := ih hpending (by rw [hsame.params]; exact htail)
    refine ⟨u, fun n => ?_, hleft, hsame.trans hsame'⟩
    rw [List.length_cons, Nat.add_right_comm, stepTimes_succ hstep, hrun]

/-- Settles O56: both reads are taken from the same bytes, and a byte's value depends on its address only. -/
theorem repeatedInputReadsAgree : Obligations.RepeatedInputReadsAgree := by
  intro s a n a' n' es rest hp hl hl' hes
  obtain ⟨t, hread, hanswer, hpending, hsame⟩ := step_readInput hp hl
  obtain ⟨u, hrun, hleft, hsame'⟩ := stepTimes_keepsInput hpending (by rw [hsame.params]; exact hes)
  have hinput : s.SameInput u := hsame.trans hsame'
  obtain ⟨v, hread', hanswer', hend, -⟩ := step_readInput hleft (by rw [hinput.params]; exact hl')
  refine ⟨t, v, inRead s a n, inRead u a' n', hread, hanswer, inRead_length s a n,
    (hrun 1).trans (stepTimes_succ hread' 0), hanswer', inRead_length u a' n', hend, fun i j hi hj hij => ?_⟩
  rw [inRead_getElem? hi, inRead_getElem? hj, hinput.inByte, hij]

end Sys2Proof.Machine
end

section
/-! PROOFS. What every command does: how it ends (60_exceptions.md R283, R289, 10_state.md R38), STATUS and ERRLOG after
it (R23, R24), the registers it may write (R21, R61), the parameters (R20), and FPOP repeated (43_demux.md R205). -/

namespace Sys2Proof.Machine

/-! ## How a command ends -/

/-- The outcome of a command on `s`: a next state, or the fault where IN covers an unwritten byte. -/
def EndsOrFaults (s : State) (r : Result) : Prop :=
  (∃ t, r = .next t) ∨ (s.InUnwritten ∧ ∃ a, r = .fault (.uninitialisedInput a))

theorem EndsOrFaults.next (s t : State) : EndsOrFaults s (.next t) := .inl ⟨t, rfl⟩

/-- Reading IN is the one place where a command can fault. -/
theorem EndsOrFaults.withIn {s : State} {k : Bytes → Result} (h : ∀ b, EndsOrFaults s (k b)) :
    EndsOrFaults s (withIn s k) := by
  obtain ⟨b, -, hrun⟩ | ⟨a, hfault, ha, hunwritten, -⟩ := withIn_cases s k
  · rw [hrun]; exact h b
  · exact .inr ⟨⟨a, ha, hunwritten⟩, a, hfault⟩

theorem EndsOrFaults.ite {s : State} {c : Prop} [Decidable c] {r r' : Result} (h : EndsOrFaults s r)
    (h' : EndsOrFaults s r') : EndsOrFaults s (if c then r else r') := by
  split
  · exact h
  · exact h'

theorem sendAddressed_endsOrFaults (a : Bytes) (s : State) : EndsOrFaults s (sendAddressed a s) :=
  .ite (.next s _) <| .withIn fun _ => .ite (.next s _) (.next s _)

/-- Settles O36: each command is made of ends, of choices between ends and of one reading of IN. -/
theorem commandsAlwaysEnd : Obligations.CommandsAlwaysEnd := by
  intro i s
  change EndsOrFaults s (exec i s)
  cases i with
  | nop | clr | otoi | srst | encd | iencr => exact .next s _
  | osum | demux => exact .withIn fun _ => .next s _
  | ovfy =>
    refine .withIn fun b => ?_
    split
    · exact .next s _
    · exact .ite (.next s _) (.next s _)
  | decf =>
    refine .withIn fun b => ?_
    split
    · exact .next s _
    · exact .ite (.next s _) (.next s _)
  | icrc =>
    exact .ite (.next s _) <| .withIn fun _ => .ite (.next s _) <| .ite (.next s _) (.next s _)
  | idec =>
    exact .ite (.next s _) <| .withIn fun _ => .ite (.next s _) <| .ite (.next s _) (.next s _)
  | encu | encb => exact sendAddressed_endsOrFaults _ s
  | escf => exact .withIn fun _ => .ite (.next s _) (.next s _)
  | ienc | iencw => exact .ite (.next s _) <| .withIn fun _ => .next s _
  | fpop =>
    change EndsOrFaults s (execFpop s)
    unfold execFpop
    split
    · exact .next s _
    · exact .next s _

/-- The fault of a command that reads IN: at the least address of IN that nothing has written (10_state.md R38). -/
def FaultsAtLeast (s : State) (r : Result) : Prop :=
  ∃ a, r = .fault (.uninitialisedInput a) ∧ a < s.ilen.toNat ∧ s.ibuf.read a = none ∧
    ∀ k, k < a → s.ibuf.read k ≠ none

theorem withIn_faultsAtLeast {s : State} (h : s.InUnwritten) (k : Bytes → Result) :
    FaultsAtLeast s (withIn s k) := by
  obtain ⟨b, hb, -⟩ | hfault := withIn_cases s k
  · exact absurd hb (not_inIs_of_inUnwritten h b)
  · exact hfault

theorem sendAddressed_faultsAtLeast {s : State} (h : s.InUnwritten) (hl : s.ilen.toNat + 11 ≤ 65535)
    (a : Bytes) : FaultsAtLeast s (sendAddressed a s) := by
  rw [sendAddressed, if_neg (Nat.not_lt.mpr hl)]
  exact withIn_faultsAtLeast h _

/-- Settles O37: past its check of ILEN, if it has one, the command reads IN. -/
theorem uninitialisedInputFaults : Obligations.UninitialisedInputFaults := by
  intro i s h hi
  change FaultsAtLeast s (exec i s)
  simp only [List.mem_cons, List.not_mem_nil, or_false] at hi
  obtain hreads | ⟨hframes, hl⟩ | ⟨hinner, hl⟩ | ⟨rfl, hmax, hl⟩ | ⟨rfl, hl⟩ := hi
  · obtain rfl | rfl | rfl | rfl | rfl := hreads <;> exact withIn_faultsAtLeast h _
  · obtain rfl | rfl := hframes <;> exact sendAddressed_faultsAtLeast h hl _
  · obtain rfl | rfl := hinner
    · rw [exec, execIcrc, if_neg (Nat.not_lt.mpr hl)]
      exact withIn_faultsAtLeast h _
    · rw [exec, execIdec, if_neg (Nat.not_lt.mpr hl)]
      exact withIn_faultsAtLeast h _
  · rw [exec, execIenc, if_neg (by simp only [innerHeader]; omega)]
    exact withIn_faultsAtLeast h _
  · rw [exec, execIencw, if_neg (Nat.not_lt.mpr hl)]
    exact withIn_faultsAtLeast h _

/-! ## STATUS and ERRLOG -/

/-- The numeric code in the STATUS of a command that raised `e`. -/
theorem State.raise_err (s : State) (e : Err) : (s.raise e).status &&& 0x0F = e.code.setWidth 8 :=
  (statusByte_fields _ _ _ _).1

theorem State.finish_err (s : State) (ck crc : Bool) : (s.finish ck crc).status &&& 0x0F = 0 :=
  (statusByte_fields _ _ _ _).1

/-- No error has the code 0. -/
@[simp] theorem statusByte_code_ne_zero (e : Err) (fq : Bool) :
    statusByte e.code false false fq &&& 15#8 ≠ 0#8 := by
  revert fq
  cases e <;> decide

/-- Settles O38: the fields of the STATUS byte of `raise`, of reset and of a good end. -/
theorem statusOfEveryCommand : Obligations.StatusOfEveryCommand := by
  intro i s t h
  obtain ⟨e, -, rfl⟩ | ⟨-, rfl⟩ | ⟨u, ck, crc, rfl, -, hck, hcrc⟩ := exec_next h
  · obtain ⟨-, hckok, hcrcok, hfqne, hbit7, -⟩ := statusByte_fields e.code false false (fqNonEmpty s)
    exact ⟨hbit7, hfqne.trans (fqNonEmpty_eq s), fun hset => absurd (hckok.symm.trans hset) (by decide),
      fun hset => absurd (hcrcok.symm.trans hset) (by decide), fun _ => ⟨hckok, hcrcok⟩⟩
  · simp
  · obtain ⟨-, hckok, hcrcok, hfqne, hbit7, -⟩ := statusByte_fields 0 ck crc (fqNonEmpty u)
    exact ⟨hbit7, hfqne.trans (fqNonEmpty_eq u), fun hset => hck (hckok.symm.trans hset),
      fun hset => hcrc (hcrcok.symm.trans hset), fun herr => absurd (State.finish_err u ck crc) herr⟩

/-- The ERRLOG bit of an error is the bit of its code (10_state.md R24). -/
theorem Err.getLsbD_logBit (e : Err) (k : Nat) :
    e.logBit.getLsbD k = (decide (1 ≤ k) && decide (k = (e.code.setWidth 8 : Byte).toNat)) := by
  have hcode : (e.code.setWidth 8 : Byte).toNat = e.code.toNat ∧ 1 ≤ e.code.toNat ∧ e.code.toNat < 16 := by
    cases e <;> decide
  obtain ⟨hwidth, hpos, hlt⟩ := hcode
  rw [logBit_eq, hwidth, BitVec.getLsbD_ofNat, Nat.testBit_two_pow, ← Bool.decide_and, ← Bool.decide_and,
    decide_eq_decide]
  omega

/-- Settles O39: `raise` sets the bit of its code; a good end has ERR = 0 and sets none. -/
theorem errlogIsSticky : Obligations.ErrlogIsSticky := by
  intro i s t hi h k
  obtain ⟨e, -, rfl⟩ | ⟨hsrst, -⟩ | ⟨u, ck, crc, rfl, hlog, -⟩ := exec_next h
  · rw [State.raise_err, State.raise_errlog, BitVec.getLsbD_or, Err.getLsbD_logBit]
  · exact absurd hsrst hi
  · have hnobit : (decide (1 ≤ k) && decide (k = (0 : Byte).toNat)) = false := by
      rw [← Bool.decide_and]
      exact decide_eq_false fun ⟨hpos, hzero⟩ => absurd (hzero ▸ hpos) (by decide)
    rw [State.finish_err, State.finish_errlog, hlog, hnobit, Bool.or_false]

/-! ## What a command writes -/

/-- IENC, IENCR and IENCW write OUT, RCRC and BLEN, whatever their data. -/
theorem sendInner_writes (c : Byte) (data : Bytes) (s : State) :
    ∃ f crc n, sendInner c data s =
      State.finish { s.setOut f with rcrc := crc, blen := n } false false := ⟨_, _, _, rfl⟩

/-- Settles O40: command by command, from the fields its success writes; an error writes none of them. -/
theorem onlyListedCommandsWrite : Obligations.OnlyListedCommandsWrite := by
  intro i s t h
  cases i with
  | nop => cases h; simp
  | clr => cases h; simp
  | otoi => cases h; simp
  | srst => cases h; simp
  | osum =>
    obtain ⟨b, -, rfl⟩ := execOsum_next h
    simp
  | ovfy => obtain ⟨e, -, rfl⟩ | ⟨c, l, p, rfl⟩ := execOvfy_next h <;> simp
  | icrc => obtain ⟨e, -, rfl⟩ | ⟨b, -, -, -, dc, ok, rfl⟩ := execIcrc_next h <;> simp
  | encu => obtain ⟨e, -, rfl⟩ | ⟨p, f, -, -, -, -, l, c, rfl⟩ := sendAddressed_next h <;> simp
  | encb => obtain ⟨e, -, rfl⟩ | ⟨p, f, -, -, -, -, l, c, rfl⟩ := sendAddressed_next h <;> simp
  | encd => cases h; simp
  | escf => obtain ⟨e, -, rfl⟩ | ⟨b, -, -, rfl⟩ := execEscf_next h <;> simp
  | decf => obtain ⟨e, -, rfl⟩ | ⟨b, f, -, -, l, ty, fid, c, p, ok, rfl⟩ := execDecf_next h <;> simp
  | ienc =>
    obtain ⟨e, -, rfl⟩ | ⟨b, -, -, rfl⟩ := execIenc_next h
    · simp
    · obtain ⟨f, crc, n, hwrites⟩ := sendInner_writes s.bcmd b s
      rw [hwrites]; simp
  | iencr =>
    cases h
    obtain ⟨f, crc, n, hwrites⟩ := sendInner_writes cmdRead [s.breq] s
    rw [hwrites]; simp
  | iencw =>
    obtain ⟨e, -, rfl⟩ | ⟨b, -, -, rfl⟩ := execIencw_next h
    · simp
    · obtain ⟨f, crc, n, hwrites⟩ := sendInner_writes cmdWrite b s
      rw [hwrites]; simp
  | idec =>
    obtain ⟨e, -, rfl⟩ | ⟨b, f, -, -, d, sr, n, st, crc, c, off, ok, rfl⟩ := execIdec_next h <;> simp
  | demux =>
    obtain ⟨b, -, rfl⟩ := execDemux_next h
    simp
  | fpop => obtain ⟨-, rfl⟩ | ⟨f, q, -, rfl⟩ := execFpop_next h <;> simp

/-! ## The parameters -/

theorem exec_params {i : Instr} {s t : State} (h : exec i s = .next t) : t.params = s.params := by
  obtain ⟨-, hparams, -⟩ := onlyListedCommandsWrite i s t h
  exact hparams

theorem storeReg_params (s : State) (r : Reg) (v : DWord) : (storeReg s r v).params = s.params := by
  obtain ⟨hsame, -⟩ := storeReg_sameInput s r v
  exact hsame.params

theorem hostWriteReg_params {r : Reg} {v : DWord} {s t : State} (h : hostWriteReg r v s = .next t) :
    t.params = s.params := by
  unfold hostWriteReg at h
  split at h
  · obtain ⟨i, hi⟩ | rfl := runCommand_next h
    · rw [exec_params hi, storeReg_params]
    · rw [State.raise_params, storeReg_params]
  · cases h
    exact storeReg_params s r v

/-- Settles O43: by the kind of event; a write to CMD by its command. -/
theorem stepKeepsTheParameters : Obligations.StepKeepsTheParameters := by
  intro s t h
  obtain ⟨-, rfl⟩ | ⟨e, rest, -, hevent⟩ := step_next h
  · rfl
  · obtain ⟨num, r, v, -, -, -, hwrite⟩ | ⟨a, rfl⟩ | ⟨a, n, rfl⟩ | ⟨a, bs, -, rfl⟩ | rfl | rfl := hevent
    · have hparams := hostWriteReg_params hwrite
      exact hparams
    · rfl
    · rfl
    · rfl
    · rfl
    · rfl

/-! ## FPOP repeated -/

theorem execTimes_succ {i : Instr} {s t : State} (h : exec i s = .next t) (n : Nat) :
    execTimes i (n + 1) s = execTimes i n t := by simp only [execTimes, h]

/-- FPOP on a queue that is not empty: the first candidate is OUT, the others are left. -/
theorem exec_fpop_cons {s : State} {f : Bytes} {q : List Bytes} (h : s.fq = f :: q) :
    ∃ t, exec .fpop s = .next t ∧ s.Wrote f t ∧ t.fq = q ∧ t.status &&& 0x0F = 0 ∧ t.ibuf = s.ibuf := by
  have hexec : exec .fpop s =
      .next (State.finish ({ s with fq := q, fcnt := s.fcnt - 1 }.setOut f) false false) := by
    simp only [exec, execFpop, h]
  exact ⟨_, hexec, ⟨Mem.stored_writeBytes s.obuf 0 f, rfl⟩, rfl, State.finish_err _ _ _, rfl⟩

/-- Settles O48: by induction on the candidates before `f`. -/
theorem fpopGivesCandidatesInOrder : Obligations.FpopGivesCandidatesInOrder := by
  intro s before f behind hq hf
  induction before generalizing s with
  | nil =>
    obtain ⟨t, hexec, hout, hleft, herr, hibuf⟩ := exec_fpop_cons hq
    exact ⟨t, execTimes_succ hexec 0, hout.outIs hf, hleft, herr, hibuf⟩
  | cons g before ih =>
    obtain ⟨t, hexec, -, hleft, -, hibuf⟩ := exec_fpop_cons hq
    obtain ⟨u, hrun, hout, hrest, herr, hibuf'⟩ := ih t hleft
    exact ⟨u, (execTimes_succ hexec _).trans hrun, hout, hrest, herr, hibuf'.trans hibuf⟩

end Sys2Proof.Machine
end

section
/-! PROOFS. Buffers (20_memory.md R65, 00_scope.md R12): a write of bytes to a buffer on its own, apart from the access
that makes it. -/

namespace Sys2Proof.Machine

/-- Settles O6: what a read gives after the write, address by address, and the canonical form, byte by byte. -/
theorem bufferWriteStoresExactly : Obligations.BufferWriteStoresExactly := by
  intro m addr bs
  constructor
  · exact Mem.stored_writeBytes m addr bs
  · exact Mem.wf_writeBytes addr bs

end Sys2Proof.Machine
end

section
/-! PROOFS. The opcode map (30_encoding.md R110, R112 to R114): decoder and encoder, and the unassigned opcodes. -/

namespace Sys2Proof.Machine

/-! ## Decoder and encoder -/

theorem decode_encode (i : Instr) : decode (encode i) = .ok i := by cases i <;> rfl

/-- No command has a field that could be ill formed (30_encoding.md R110). -/
theorem instr_wf (i : Instr) : i.wf = true := by cases i <;> rfl

/-- A row of the opcode map looks at all 8 bits and holds its command's opcode (30_encoding.md R113). -/
theorem opcodeRows_full : ∀ r ∈ opcodeRows, r.mask = BitVec.allOnes 8 ∧ r.pattern = encode r.instr := by decide

theorem encode_of_decode {op : Byte} {i : Instr} (h : decode op = .ok i) : encode i = op := by
  unfold decode at h
  split at h
  · rename_i r hfind
    obtain ⟨hmask, hpattern⟩ := opcodeRows_full r (List.mem_of_find?_eq_some hfind)
    have hmatch : op &&& r.mask = r.pattern := by simpa using List.find?_some hfind
    rw [hmask, BitVec.and_allOnes, hpattern] at hmatch
    cases h
    exact hmatch.symm
  · cases h

/-- Settles O1: `encode` is a right inverse of `decode` and, row by row of the opcode map, a left one. -/
theorem decodeAndEncodeAgree : Obligations.DecodeAndEncodeAgree :=
  ⟨fun i _ => decode_encode i, fun _ i h => ⟨encode_of_decode h, instr_wf i⟩⟩

/-- Settles O2: every assigned opcode is the opcode of its command. -/
theorem opcodeMapOfTheSpec : Obligations.OpcodeMapOfTheSpec :=
  ⟨decode_encode .nop, decode_encode .clr, decode_encode .otoi, decode_encode .srst, decode_encode .osum,
    decode_encode .ovfy, decode_encode .icrc, decode_encode .encu, decode_encode .encd, decode_encode .encb,
    decode_encode .escf, decode_encode .decf, decode_encode .ienc, decode_encode .iencr, decode_encode .iencw,
    decode_encode .idec, decode_encode .demux, decode_encode .fpop⟩

/-! ## The unassigned opcodes -/

/-- The five ranges of unassigned opcodes (30_encoding.md R114). -/
def UnassignedOpcode (v : Byte) : Prop :=
  (0x04 ≤ v ∧ v ≤ 0x0F) ∨ (0x13 ≤ v ∧ v ≤ 0x1F) ∨ (0x25 ≤ v ∧ v ≤ 0x2F) ∨ (0x34 ≤ v ∧ v ≤ 0x3F) ∨ 0x42 ≤ v

theorem not_unassignedOpcode_encode (i : Instr) : ¬UnassignedOpcode (encode i) := by
  unfold UnassignedOpcode
  cases i <;> decide

theorem runCommand_unassigned {s : State} (h : UnassignedOpcode s.cmd) : runCommand s = .next (s.failed 1) := by
  unfold runCommand
  split
  · rename_i i hdecode
    rw [← encode_of_decode hdecode] at h
    exact absurd h (not_unassignedOpcode_encode i)
  · exact congrArg Host.Outcome.next (raise_eq s .ill)

/-- Settles O3: no command has the value as its opcode, so the step stores it and reports E_ILL. -/
theorem illegalOpcodeOnlyReports : Obligations.IllegalOpcodeOnlyReports := by
  intro s v rest hp hv
  rw [step_cmd hp]
  exact runCommand_unassigned (s := { s with pending := rest, cmd := v }) hv

end Sys2Proof.Machine
end

section
/-! PROOFS. The commands that build what the host sends (30_encoding.md R92 to R104): outer frames, the escaped form,
inner requests, the relayed read request, and the laws of the bytes they leave in OUT. -/

namespace Sys2Proof.Machine

/-! ## OUT -/

theorem State.OutIs.unique {s : State} {f g : Bytes} (hf : s.OutIs f) (hg : s.OutIs g) : f = g :=
  (outRead_of_outIs hf).symm.trans (outRead_of_outIs hg)

/-- What a command leaves in OUT is read back from it, as far as its length fits BUF_CAP. -/
theorem State.Inv.setOut_outIs {s : State} (h : s.Inv) {f : Bytes} (hf : f.length ≤ s.params.bufCap) :
    (s.setOut f).OutIs f := by
  have := h.cap
  exact (wrote_setOut s f).outIs (by omega)

/-- OTOI makes OUT the bytes of IN (44_control.md R217). -/
theorem exec_otoi_of_outIs {s : State} {f : Bytes} (h : s.OutIs f) :
    ∃ t, exec .otoi s = .next t ∧ s.ibuf.Stored 0 f t.ibuf ∧ t.InIs f ∧
      t = { s with ibuf := t.ibuf, ilen := s.olen, status := specEnd 0 false false s.fcnt } := by
  have hexec : exec .otoi s = .next
      (State.finish { s with ibuf := s.ibuf.writeBytes 0 f, ilen := s.olen } false false) := by
    rw [exec, execOtoi, outRead_of_outIs h]
  have hstored := Mem.stored_writeBytes s.ibuf 0 f
  exact ⟨_, hexec, hstored, ⟨h.1, hstored.holds⟩, finish_eq _ _ _⟩

/-- STATUS of a good end, but for FQNE, is 0 (10_state.md R23). -/
theorem specEnd_success (fcnt : Half) : specEnd 0 false false fcnt &&& 0x3F = 0 := by
  unfold specEnd
  generalize decide (fcnt ≠ 0) = fqne
  revert fqne
  decide

/-! ## Outer frames -/

/-- With CFG.ESC = 0 a frame is sent as it is (10_state.md R25). -/
theorem specSent_unescaped {s : State} (h : s.cfg.getLsbD 0 = false) (f : Bytes) : specSent s f = f := by
  rw [specSent, h, if_neg Bool.false_ne_true]

/-- E_LEN is decided by ILEN alone (log entry 6). -/
theorem sendAddressed_tooLong {s : State} (h : 65535 < s.ilen.toNat + 11) (a : Bytes) :
    sendAddressed a s = .next (s.failed 6) := by
  rw [sendAddressed, if_pos h, raise_eq]
  rfl

/-- ENCU and ENCB past the check of the length, for the frame `f` they send (41_outer_frame.md R150, R155). -/
theorem sendAddressed_of_inIs {s : State} {p f : Bytes} {a : DWord} (hp : s.InIs p) (hl : p.length + 11 ≤ 65535)
    (hf : f = specSent s (specFrame s.txtype s.txfid (specAddr a) s.txrsvd p)) :
    sendAddressed (addrBytes a) s =
      if s.params.bufCap < f.length then .next (s.failed 7)
      else .next (State.finish
        { s.setOut f with
          rlen := BitVec.ofNat 16 (p.length + 11),
          rsum := specSum ([s.txtype, s.txfid] ++ specAddr a ++ [s.txrsvd] ++ p) } false false) := by
  have hlen : ¬0xFFFF < s.ilen.toNat + uniOverhead := by rw [← hp.1]; exact Nat.not_lt.mpr hl
  rw [sendAddressed, if_neg hlen, withIn_of_inIs hp, ← hp.1]
  simp only [addressed_eq _ _ _ _ _ hl, byteAt_specFrame, transmitForm_eq, ← hf, raise_eq]
  rfl

theorem buildsAddressedFrame {i : Instr} {a : State → DWord}
    (hexec : ∀ s, exec i s = sendAddressed (addrBytes (a s)) s) : BuildsAddressedFrame i a := by
  intro s
  rw [hexec]
  refine ⟨fun hlong => sendAddressed_tooLong hlong _, fun p f hp hl hf => ?_⟩
  rw [sendAddressed_of_inIs hp hl hf]
  refine ⟨fun hovf => if_pos hovf, fun hfit => ⟨_, if_neg (Nat.not_lt.mpr hfit), wrote_setOut s f, ?_⟩⟩
  rw [finish_eq]
  rfl

/-- Settles O23: ENCU sends to ADDR. -/
theorem encuBuildsTheUnicastFrame : Obligations.EncuBuildsTheUnicastFrame :=
  buildsAddressedFrame fun _ => rfl

/-- Settles O24: ENCB sends to BCAST_ADDR. -/
theorem encbBuildsTheBroadcastFrame : Obligations.EncbBuildsTheBroadcastFrame :=
  buildsAddressedFrame fun _ => rfl

theorem exec_encd (s : State) :
    exec .encd s = .next (State.finish { s.setOut discFrame with rlen := 4 } false false) := by
  rw [exec, execEncd, transmitForm_eq, specSent_discFrame]

/-- Settles O25: the escaped form of the discovery frame is the frame itself. -/
theorem encdBuildsTheDiscoveryFrame : Obligations.EncdBuildsTheDiscoveryFrame := by
  intro s
  refine ⟨_, exec_encd s, Mem.stored_writeBytes s.obuf 0 discFrame, ?_⟩
  rw [finish_eq]
  rfl

/-- Settles O26: the two branches of the check against BUF_CAP. -/
theorem escfEscapesIn : Obligations.EscfEscapesIn := by
  intro s b hb
  rw [exec, execEscf, withIn_of_inIs hb]
  simp only [escape_eq, raise_eq, finish_eq]
  exact ⟨fun hovf => if_pos hovf, fun hfit => ⟨_, if_neg (Nat.not_lt.mpr hfit), wrote_setOut s _, rfl⟩⟩

/-! ## Inner requests -/

/-- The common end of IENC, IENCR and IENCW builds an inner message (42_inner_bus.md R180). -/
theorem buildsInnerMessage_of_sendInner {i : Instr} {s : State} {c : Byte} {d : Bytes}
    (hexec : exec i s = .next (sendInner c d s)) (hd : d.length ≤ 247) : BuildsInnerMessage i s c d := by
  rw [sendInner_eq hd, finish_eq] at hexec
  exact ⟨_, _, hexec, rfl, wrote_setOut s _, rfl⟩

/-- Settles O29: one data byte. -/
theorem iencrBuildsAReadRequest : Obligations.IencrBuildsAReadRequest := fun s =>
  buildsInnerMessage_of_sendInner (c := cmdRead) (d := [s.breq]) rfl (by simp)

/-- Settles O30: the check of ILEN first, then IN is read. -/
theorem iencwBuildsAWriteRequest : Obligations.IencwBuildsAWriteRequest := by
  intro s
  refine ⟨fun hlong => ?_, fun d hd hl => ?_⟩
  · rw [exec, execIencw, if_pos hlong, raise_eq]
    rfl
  · have hshort : ¬page < s.ilen.toNat := by rw [← hd.1]; exact Nat.not_lt.mpr hl
    refine buildsInnerMessage_of_sendInner (c := cmdWrite) ?_ (by omega)
    rw [exec, execIencw, if_neg hshort, withIn_of_inIs hd]

/-! ## Relayed requests -/

/-- The payload of an addressed frame stands at offset 14 (30_encoding.md R93). -/
theorem specFrame_payload (ty fid : Byte) (a : DWord) (rsvd : Byte) (p : Bytes) :
    ((specFrame ty fid (specAddr a) rsvd p).drop 14).take p.length = p := by
  have hdrop : (specFrame ty fid (specAddr a) rsvd p).drop 14 =
      p ++ [specSum ([ty, fid] ++ specAddr a ++ [rsvd] ++ p)] := rfl
  rw [hdrop, List.take_left]

/-- OTOI and ENCB after a command that left `m` in OUT: the broadcast frame around `m` (30_encoding.md R103). -/
theorem otoi_encb_relays {s : State} {m : Bytes} (hs : s.Inv) (hm : s.OutIs m) (hesc : s.cfg.getLsbD 0 = false)
    (hl : m.length + 15 ≤ s.params.bufCap) :
    ∃ t u, exec .otoi s = .next t ∧ exec .encb t = .next u ∧
      u.OutIs (specFrame s.txtype s.txfid (specAddr s.params.bcastAddr) s.txrsvd m) ∧
      u.status &&& 0x3F = 0 := by
  obtain ⟨t, hotoi, -, hin, ht⟩ := exec_otoi_of_outIs hm
  have hcap := hs.cap
  have hparams := exec_params hotoi
  obtain ⟨-, hbuilds⟩ := encbBuildsTheBroadcastFrame t
  have hsent : specFrame s.txtype s.txfid (specAddr s.params.bcastAddr) s.txrsvd m =
      specSent t (specFrame t.txtype t.txfid (specAddr t.params.bcastAddr) t.txrsvd m) := by
    have hesc' : t.cfg.getLsbD 0 = false := by rw [ht]; exact hesc
    rw [specSent_unescaped hesc', ht]
  obtain ⟨-, hfits⟩ := hbuilds m _ hin (by omega) hsent
  obtain ⟨u, hencb, hout, hu⟩ := hfits (by rw [specFrame_length, hparams]; exact hl)
  refine ⟨t, u, hotoi, hencb, hout.outIs (by rw [specFrame_length]; omega), ?_⟩
  rw [hu]
  exact specEnd_success _

/-- Settles O46: IENCR leaves 9 bytes in OUT, which the other two commands relay. -/
theorem relayedReadRequest : Obligations.RelayedReadRequest := by
  intro s hs hesc
  obtain ⟨t₁, crc, hiencr, rfl, hwrote, ht₁⟩ := iencrBuildsAReadRequest s
  have hinv : t₁.Inv := exec_keeps_inv hs hiencr
  have hcap := hinv.cap
  have hlen : ∀ crc, (specInner s.bdest s.bsrc 0x52 s.boff crc [s.breq]).length = 9 := fun crc =>
    specInner_length _ _ _ _ _ _
  have hesc₁ : t₁.cfg.getLsbD 0 = false := by rw [ht₁]; exact hesc
  obtain ⟨t₂, t₃, hotoi, hencb, hout, hstatus⟩ :=
    otoi_encb_relays hinv (hwrote.outIs (by rw [hlen]; omega)) hesc₁ (by rw [hlen]; omega)
  refine ⟨t₁, t₂, t₃, _, _, hiencr, hotoi, hencb, hout, ?_, ?_, rfl, ?_, hstatus⟩
  · rw [specFrame_length, hlen]
  · have hpayload := specFrame_payload t₁.txtype t₁.txfid t₁.params.bcastAddr t₁.txrsvd
      (specInner s.bdest s.bsrc 0x52 s.boff (specInnerCrc s.params s.bdest s.bsrc 0x52 s.boff [s.breq]) [s.breq])
    rwa [hlen] at hpayload
  · rw [ht₁]

/-! ## The checksum equation -/

/-- Bytes and their checksum sum to 0xFF modulo 256 (40_checksum.md R132). -/
theorem byteSum_append_outerChecksum (s : Bytes) : byteSum (s ++ [outerChecksum s]) % 256 = 0xFF := by
  simp only [byteSum, outerChecksum, List.map_append, List.map_cons, List.map_nil, List.sum_append, List.sum_cons,
    List.sum_nil, BitVec.toNat_ofNat]
  omega

theorem addressed_drop_three (t f : Byte) (a : Bytes) (r : Byte) (p : Bytes) :
    (addressed t f a r p).drop 3 =
      ([t, f] ++ a ++ [r] ++ p) ++ [outerChecksum ([t, f] ++ a ++ [r] ++ p)] := rfl

theorem sendAddressed_sums {a f : Bytes} {s t : State} (hs : s.Inv) (hesc : s.cfg.getLsbD 0 = false)
    (h : sendAddressed a s = .next t) (herr : t.status &&& 0x0F = 0) (hf : t.OutIs f) :
    byteSum (f.drop 3) % 256 = 0xFF := by
  obtain ⟨e, -, rfl⟩ | ⟨p, g, -, -, hg, hfit, l, c, rfl⟩ := sendAddressed_next h
  · exact absurd herr (statusByte_code_ne_zero e _)
  · obtain rfl : f = g := hf.unique (hs.setOut_outIs hfit)
    rw [hg, transmitForm_eq, specSent_unescaped hesc, addressed_drop_three, byteSum_append_outerChecksum]

/-- Settles O49: an addressed frame ends with the checksum of its body; the discovery frame is fixed. -/
theorem builtFramesSumToFF : Obligations.BuiltFramesSumToFF := by
  intro i s t f hi hs hesc h herr hf
  change byteSum (f.drop 3) % 256 = 0xFF
  simp only [List.mem_cons, List.not_mem_nil, or_false] at hi
  obtain rfl | rfl | rfl := hi
  · exact sendAddressed_sums hs hesc h herr hf
  · exact sendAddressed_sums hs hesc h herr hf
  · rw [exec_encd] at h
    cases h
    have hcap := hs.cap
    have hfit : discFrame.length ≤ s.params.bufCap := by rw [show discFrame.length = 8 from rfl]; omega
    obtain rfl : f = discFrame := hf.unique (hs.setOut_outIs hfit)
    decide

/-! ## The escaped form -/

section
variable {p : Params} (hbyte : p.escByte = 0x7D) (hxor : p.escXor = 0x20)
include hbyte hxor

/-- With the default ESC_BYTE and ESC_XOR no byte is escaped to a start byte (41_outer_frame.md R158). -/
theorem start_notMem_escapeByte (x : Byte) : 0x7E ∉ escapeByte p x := by
  unfold escapeByte
  split
  · rename_i hx
    rw [hbyte, hxor]
    have hset : ∀ y ∈ escSet, (0x7E : Byte) ∉ [0x7D, y ^^^ 0x20] := by decide
    exact hset x (List.contains_iff_mem.mp hx)
  · rename_i hx
    rw [List.mem_singleton]
    rintro rfl
    exact hx rfl

theorem start_notMem_tail_escape (b : Bytes) : 0x7E ∉ (escape p b).tail := by
  cases b with
  | nil => exact List.not_mem_nil
  | cons x rest =>
    rw [escape, List.tail_cons, List.mem_flatMap]
    rintro ⟨y, -, hy⟩
    exact start_notMem_escapeByte hbyte hxor y hy

end

theorem head?_escape (p : Params) (b : Bytes) : (escape p b).head? = b.head? := by cases b <;> rfl

theorem length_escapeByte (p : Params) (x : Byte) :
    (escapeByte p x).length = 1 + if x == 0x7E || x == 0x7D || x == 0x11 || x == 0x13 then 1 else 0 := by
  have hset : escSet.contains x = (x == 0x7E || x == 0x7D || x == 0x11 || x == 0x13) := by
    simp only [escSet, List.contains_cons, List.contains_nil, Bool.or_false, Bool.or_assoc]
  rw [escapeByte, hset]
  split <;> rfl

/-- Escaping lengthens by one byte for each escaped byte (41_outer_frame.md R158). -/
theorem length_escape (p : Params) (b : Bytes) :
    (escape p b).length =
      b.length + b.tail.countP (fun x => x == 0x7E || x == 0x7D || x == 0x11 || x == 0x13) := by
  cases b with
  | nil => rfl
  | cons x rest =>
    rw [escape, List.length_cons, List.length_cons, List.tail_cons]
    induction rest with
    | nil => rfl
    | cons y rest ih =>
      rw [List.flatMap_cons, List.length_append, length_escapeByte, List.countP_cons, List.length_cons]
      omega

/-- Settles O50: OUT is the escaped form of IN, whose laws these are. -/
theorem escapedFrameHasNoInnerStart : Obligations.EscapedFrameHasNoInnerStart := by
  intro s t b f hs hb hbyte hxor h herr hf
  obtain ⟨e, -, rfl⟩ | ⟨b', hb', hfit, rfl⟩ := execEscf_next h
  · exact absurd herr (statusByte_code_ne_zero e _)
  · obtain rfl : b = b' := Except.ok.inj ((inBytes_of_inIs hb).symm.trans (inBytes_of_inIs hb'))
    obtain rfl : f = escape s.params b := hf.unique (hs.setOut_outIs hfit)
    exact ⟨start_notMem_tail_escape hbyte hxor b, head?_escape s.params b, length_escape s.params b⟩

end Sys2Proof.Machine
end

section
/-! PROOFS. The checksum commands (40_checksum.md): OSUM, OVFY and ICRC in full (R131, R133, R142), and the laws of the
inner CRC (R143, R144): what it depends on, the candidate update bit by bit, and that it tells one changed byte. -/

namespace Sys2Proof.Machine

/-! ## The outer checksum -/

/-- Settles O20: OSUM reads IN and ends. -/
theorem osumGivesTheOuterChecksum : Obligations.OsumGivesTheOuterChecksum := by
  intro s b hb
  rw [exec, execOsum, withIn_of_inIs hb, finish_eq, outerChecksum_eq]

/-- OVFY where IN holds a frame: its body's checksum against the stored one (40_checksum.md R133). -/
theorem execOvfy_frame {s : State} {b pre body tail : Bytes} {hi lo ck : Byte} (hb : s.InIs b)
    (hf : FrameIn b pre hi lo body ck tail) :
    execOvfy s =
      if specSum body ≠ ck then .next (s.failed 4)
      else .next (State.finish { s with
        rsum := specSum body, rlen := BitVec.ofNat 16 body.length, rpos := BitVec.ofNat 16 pre.length }
        true false) := by
  rw [execOvfy, withIn_of_inIs hb]
  simp only [locate_frame hf, frame_body hf, frame_checksum hf, outerChecksum_eq, raise_eq]
  rfl

/-- OVFY where IN holds no frame: the error of `Locate`. -/
theorem execOvfy_noFrame {s : State} {b : Bytes} {e : Err} (hb : s.InIs b) (he : locate b = .error e) :
    execOvfy s = .next (s.failed e.code.toNat) := by
  rw [execOvfy, withIn_of_inIs hb]
  simp only [he, raise_eq]

/-- Settles O21: by the three cases of the first frame of IN. -/
theorem ovfyVerifiesTheFirstFrame : Obligations.OvfyVerifiesTheFirstFrame := by
  intro s b hb
  refine ⟨fun pre hi lo body ck tail hf => ⟨fun hck => ?_, fun hck => ?_⟩, fun hnone => ?_, fun hshort => ?_⟩
  · rw [exec, execOvfy_frame hb hf, if_neg (not_not.mpr hck.symm), finish_eq]
  · rw [exec, execOvfy_frame hb hf, if_pos hck.symm]
  · exact execOvfy_noFrame hb (locate_noStart hnone)
  · exact execOvfy_noFrame hb (locate_short hshort)

/-! ## ICRC -/

theorem State.InIs.unique {s : State} {b b' : Bytes} (hb : s.InIs b) (hb' : s.InIs b') : b = b' :=
  Except.ok.inj ((inBytes_of_inIs hb).symm.trans (inBytes_of_inIs hb'))

/-- ICRC ends with E_SHORT on ILEN alone, before it reads IN (log entry 6). -/
theorem execIcrc_tooShort {s : State} (h : s.ilen.toNat < 3) : execIcrc s = .next (s.failed 3) := by
  rw [execIcrc, if_pos h, raise_eq]
  rfl

/-- CRCOK compares the stored CRC, low byte first, with the computed one (40_checksum.md R142). -/
theorem lsbFirst_beq (x y : Byte) (crc : Half) :
    (lsbFirst x y == crc) = decide (x.toNat + 256 * y.toNat = crc.toNat) := by
  have hx := x.isLt
  have hy := y.isLt
  rw [beq_eq_decide, decide_eq_decide, lsbFirst_eq, ← BitVec.toNat_inj, BitVec.toNat_ofNat,
    Nat.mod_eq_of_lt (by omega)]

/-- ICRC on an IN of at least 3 bytes (40_checksum.md R142). -/
theorem execIcrc_of_inIs {s : State} {b : Bytes} (hb : s.InIs b) (h3 : 3 ≤ b.length) :
    execIcrc s =
      if b.length < (byteAt b 2).toNat then .next (s.failed 3)
      else .next (State.finish { s with
        rcrc := innerCrc16 s.params b, blen := byteAt b 2,
        dcrc := if 5 ≤ (byteAt b 2).toNat then lsbFirst (byteAt b 3) (byteAt b 4) else 0 }
        false (decide (5 ≤ (byteAt b 2).toNat) && lsbFirst (byteAt b 3) (byteAt b 4) == innerCrc16 s.params b)) := by
  have hlong : ¬s.ilen.toNat < 3 := by rw [← hb.1]; exact Nat.not_lt.mpr h3
  rw [execIcrc, if_neg hlong, withIn_of_inIs hb, ← hb.1]
  simp only [raise_eq]
  by_cases h5 : 5 ≤ (byteAt b 2).toNat
  · simp only [h5, if_true, decide_true, Bool.true_and]
    rfl
  · simp only [h5, if_false, decide_false, Bool.false_and]
    rfl

/-- Settles O22: the check of ILEN, the check of the declared length, and the CRC over it. -/
theorem icrcComputesTheInnerCrc : Obligations.IcrcComputesTheInnerCrc := by
  intro s
  refine ⟨execIcrc_tooShort, ?_⟩
  rintro b n hb h3 rfl
  rw [exec, execIcrc_of_inIs hb h3]
  refine ⟨fun hcut => if_pos hcut, fun hfits => ?_⟩
  have hdeclared : (byteAt b 2).toNat ≤ b.length := hfits
  rw [if_neg (Nat.not_lt.mpr hdeclared), finish_eq, innerCrc16_eq _ _ hdeclared, lsbFirst_beq, lsbFirst_eq,
    ← Bool.decide_and]
  rfl

/-- ICRC that ends without an error found the declared bytes in IN, and RCRC is their CRC. -/
theorem exec_icrc_rcrc {s t : State} {b : Bytes} (hb : s.InIs b) (h : exec .icrc s = .next t)
    (herr : t.status &&& 0x0F = 0) :
    (b.getD 2 0).toNat ≤ b.length ∧ t.rcrc = specCrc s.params b (b.getD 2 0).toNat := by
  obtain ⟨e, -, rfl⟩ | ⟨b', hb', -, hfits, dc, ok, rfl⟩ := execIcrc_next h
  · exact absurd herr (statusByte_code_ne_zero e _)
  · obtain rfl := hb.unique hb'
    exact ⟨hfits, innerCrc16_eq _ _ hfits⟩

/-- Settles O51: RCRC is the CRC of bytes on which the two INs agree. -/
theorem icrcIgnoresTheCrcField : Obligations.IcrcIgnoresTheCrcField := by
  intro s s' t t' b b' hb hb' hparams hagree h h' herr herr'
  obtain ⟨-, hrcrc⟩ := exec_icrc_rcrc hb h herr
  obtain ⟨-, hrcrc'⟩ := exec_icrc_rcrc hb' h' herr'
  have hlen : b.getD 2 0 = b'.getD 2 0 := hagree 2 (.inr rfl) (by decide) (by decide)
  rw [hrcrc, hrcrc', ← hparams, ← hlen]
  exact specCrc_congr _ fun k hk => hagree k (.inl hk)

/-! ## The candidate update, bit by bit -/

/-- What a bit-serial step feeds back when the bit shifted out differs from the data bit (40_checksum.md R144). -/
def feedback (differ : Bool) : Half := if differ then 0xA001 else 0

theorem serialStep_eq (crc : Half) (x : Bool) :
    serialStep crc x = (crc <<< 1) ^^^ feedback (crc.getLsbD 15 ^^ x) := by
  rw [serialStep, feedback, Bool.bne_eq_xor]
  split
  · rfl
  · exact BitVec.xor_zero.symm

theorem feedback_xor : ∀ x y, feedback (x ^^ y) = feedback x ^^^ feedback y := by decide

/-- A step of the bit-serial update is linear over xor in the CRC and the data bit together. -/
theorem serialStep_xor (c d : Half) (x y : Bool) :
    serialStep (c ^^^ d) (x ^^ y) = serialStep c x ^^^ serialStep d y := by
  have hbits : ((c ^^^ d).getLsbD 15 ^^ (x ^^ y)) = ((c.getLsbD 15 ^^ x) ^^ (d.getLsbD 15 ^^ y)) := by
    rw [BitVec.getLsbD_xor, Bool.xor_assoc, Bool.xor_assoc, Bool.xor_left_comm x]
  rw [serialStep_eq, serialStep_eq, serialStep_eq, hbits, feedback_xor, BitVec.shiftLeft_xor_distrib]
  ac_rfl

/-- Four bit-serial steps over a nibble, bit 3 first. -/
def serialNibble (crc : Half) (nib : BitVec 4) : Half :=
  ([3, 2, 1, 0].map nib.getLsbD).foldl serialStep crc

theorem serialNibble_xor (c d : Half) (m n : BitVec 4) :
    serialNibble (c ^^^ d) (m ^^^ n) = serialNibble c m ^^^ serialNibble d n := by
  simp only [serialNibble, List.map_cons, List.map_nil, List.foldl_cons, List.foldl_nil, BitVec.getLsbD_xor,
    serialStep_xor]

theorem serialStep_of_bit_zero {crc : Half} (h : crc.getLsbD 15 = false) : serialStep crc false = crc <<< 1 := by
  rw [serialStep, h]
  rfl

/-- While the bits shifted out are 0 and the data bits too, nothing but the shift happens. -/
theorem serialNibble_low (low : BitVec 12) : serialNibble (0#4 ++ low) 0 = (0#4 ++ low) <<< 4 := by
  have hstep : ∀ k < 4, serialStep ((0#4 ++ low) <<< k) false = (0#4 ++ low) <<< (k + 1) := by
    intro k hk
    have hbit : ((0#4 ++ low) <<< k).getLsbD 15 = false := by
      rw [BitVec.getLsbD_shiftLeft, BitVec.getLsbD_append, if_neg (by omega), BitVec.getLsbD_zero, Bool.and_false]
    rw [serialStep_of_bit_zero hbit, BitVec.shiftLeft_add]
  calc serialNibble (0#4 ++ low) 0
    _ = serialStep (serialStep (serialStep (serialStep ((0#4 ++ low) <<< 0) false) false) false) false := by
      rw [BitVec.shiftLeft_zero]; rfl
    _ = (0#4 ++ low) <<< 4 := by
      rw [hstep 0 (by decide), hstep 1 (by decide), hstep 2 (by decide), hstep 3 (by decide)]

/-- The tables of R141 tabulate four bit-serial steps from the top nibble of the CRC. -/
theorem serialNibble_top : ∀ top nib : BitVec 4,
    serialNibble (top ++ 0#12) nib = crcNibble crcHiDefault crcLoDefault (top ++ 0#12) nib := by decide

/-- The low 12 bits of the CRC take no part in the table look-up (40_checksum.md R140). -/
theorem crcNibble_low (hi lo : Vector Byte 16) (c : Half) (low : BitVec 12) (nib : BitVec 4) :
    crcNibble hi lo (c ^^^ (0#4 ++ low)) nib = crcNibble hi lo c nib ^^^ ((0#4 ++ low) <<< 4) := by
  have htop : (c ^^^ (0#4 ++ low)).extractLsb' 12 4 = c.extractLsb' 12 4 := by
    rw [BitVec.extractLsb'_xor, BitVec.extractLsb'_append_eq_left, BitVec.xor_zero]
  simp only [crcNibble, htop, BitVec.shiftLeft_xor_distrib]
  ac_rfl

theorem half_eq_top_xor_low (crc : Half) :
    crc = (crc.extractLsb' 12 4 ++ 0#12) ^^^ (0#4 ++ crc.extractLsb' 0 12) := by
  ext i hi
  rw [BitVec.getElem_xor, BitVec.getElem_append, BitVec.getElem_append]
  by_cases hlow : i < 12
  · simp [hlow, BitVec.getLsbD_eq_getElem hi]
  · simp [hlow, show 12 + (i - 12) = i by omega, BitVec.getLsbD_eq_getElem hi]

theorem crcNibble_eq_serialNibble (crc : Half) (nib : BitVec 4) :
    crcNibble crcHiDefault crcLoDefault crc nib = serialNibble crc nib := by
  rw [half_eq_top_xor_low crc, crcNibble_low, ← serialNibble_top, ← serialNibble_low, ← serialNibble_xor,
    BitVec.ofNat_eq_ofNat, BitVec.xor_zero]

/-- A byte is fed as its two nibbles, the high one first. -/
theorem crcUpdate_candidate_eq (crc : Half) (b : Byte) :
    crcUpdate crcCandidate crc b =
      serialNibble (serialNibble crc (b.extractLsb' 4 4)) (b.extractLsb' 0 4) := by
  rw [← crcNibble_eq_serialNibble, ← crcNibble_eq_serialNibble]
  rfl

/-- Settles O52: each nibble is four of the eight steps. -/
theorem candidateCrcIsBitSerial : Obligations.CandidateCrcIsBitSerial := by
  intro crc b
  rw [crcUpdate_candidate_eq]
  simp [serialNibble]

/-! ## One changed byte -/

theorem crcUpdate_candidate_xor (c d : Half) (x y : Byte) :
    crcUpdate crcCandidate (c ^^^ d) (x ^^^ y) = crcUpdate crcCandidate c x ^^^ crcUpdate crcCandidate d y := by
  simp only [crcUpdate_candidate_eq, BitVec.extractLsb'_xor, serialNibble_xor]

theorem feedback_getLsbD_zero : ∀ x, (feedback x).getLsbD 0 = x := by decide

/-- The shift clears bit 0, and what is fed back shows there. -/
theorem serialStep_getLsbD_zero (crc : Half) (x : Bool) :
    (serialStep crc x).getLsbD 0 = (crc.getLsbD 15 ^^ x) := by
  rw [serialStep_eq, BitVec.getLsbD_xor, feedback_getLsbD_zero]
  simp

/-- Bit 0 keeps the bit that a step shifts out, so a step loses nothing (40_checksum.md R144). -/
theorem serialStep_eq_zero {crc : Half} (h : serialStep crc false = 0) : crc = 0 := by
  have hout : crc.getLsbD 15 = false := by
    rw [← Bool.xor_false (crc.getLsbD 15), ← serialStep_getLsbD_zero, h]
    rfl
  rw [serialStep_of_bit_zero hout] at h
  have hsmall : 2 * crc.toNat < 2 ^ 16 := BitVec.msb_eq_false_iff_two_mul_lt.mp hout
  have hzero : (crc <<< 1).toNat = 0 := congrArg BitVec.toNat h
  rw [BitVec.toNat_shiftLeft, Nat.shiftLeft_eq] at hzero
  bv_omega

theorem serialStep_injective (x : Bool) : Function.Injective (serialStep · x) := by
  intro c d h
  have hdiff : serialStep (c ^^^ d) (x ^^ x) = 0#16 := by
    rw [serialStep_xor, show serialStep c x = serialStep d x from h, BitVec.xor_self]
  rw [Bool.xor_self] at hdiff
  exact BitVec.xor_eq_zero_iff.mp (serialStep_eq_zero hdiff)

/-- A fold whose every step is injective in the accumulator is injective in it. -/
theorem foldl_injective {σ α : Type} {f : σ → α → σ} (hf : ∀ a, Function.Injective (f · a)) (l : List α) :
    Function.Injective (l.foldl f ·) := by
  induction l with
  | nil => exact Function.injective_id
  | cons a l ih => exact ih.comp (hf a)

theorem crcUpdate_candidate_injective (b : Byte) : Function.Injective (crcUpdate crcCandidate · b) := by
  intro c d h
  simp only [candidateCrcIsBitSerial _ b] at h
  exact foldl_injective serialStep_injective _ h

/-- Fed to a CRC of 0, no byte but 0 leaves 0. -/
theorem crcUpdate_candidate_zero : ∀ x : Byte, crcUpdate crcCandidate 0 x = 0 → x = 0 := by decide

theorem crcUpdate_candidate_byte_injective (c : Half) : Function.Injective (crcUpdate crcCandidate c) := by
  intro x y h
  have hdiff : crcUpdate crcCandidate (c ^^^ c) (x ^^^ y) = 0#16 := by
    rw [crcUpdate_candidate_xor, h, BitVec.xor_self]
  rw [BitVec.xor_self] at hdiff
  exact BitVec.xor_eq_zero_iff.mp (crcUpdate_candidate_zero _ hdiff)

theorem getD_set_ne {b : Bytes} {k i : Nat} (h : i ≠ k) (v : Byte) : (b.set k v).getD i 0 = b.getD i 0 := by
  rw [List.getD_eq_getElem?_getD, List.getElem?_set_ne h.symm, ← List.getD_eq_getElem?_getD]

theorem getD_set_self {b : Bytes} {k : Nat} (h : k < b.length) (v : Byte) : (b.set k v).getD k 0 = v := by
  rw [List.getD_eq_getElem?_getD, List.getElem?_set_self h, Option.getD_some]

/-- Bytes that are not fed do not matter. -/
theorem foldl_crcUpdate_set {u : CrcUnit} {b : Bytes} {k : Nat} {v : Byte} {l : List Nat} (h : k ∉ l) (crc : Half) :
    l.foldl (fun c i => crcUpdate u c ((b.set k v).getD i 0)) crc =
      l.foldl (fun c i => crcUpdate u c (b.getD i 0)) crc :=
  List.foldl_ext _ _ _ fun _ _ hi => by rw [getD_set_ne (ne_of_mem_of_not_mem hi h)]

/-- The candidate CRC tells a message from one that differs in one fed byte: equal before that byte, different after
it, and injective steps from there on (40_checksum.md R143). -/
theorem specCrc_candidate_set_ne {p : Params} (hp : p.crc = crcCandidate) {b : Bytes} {k n : Nat} {v : Byte}
    (hk : k < n) (h3 : k ≠ 3) (h4 : k ≠ 4) (hl : k < b.length) (hv : b.getD k 0 ≠ v) :
    specCrc p b n ≠ specCrc p (b.set k v) n := by
  have hmem : k ∈ (List.range n).filter (fun i => i != 3 && i != 4) := by simp [hk, h3, h4]
  have hnodup := (List.nodup_range (n := n)).filter (fun i => i != 3 && i != 4)
  obtain ⟨before, behind, hfed⟩ := List.append_of_mem hmem
  rw [hfed, List.nodup_middle, List.nodup_cons, List.mem_append, not_or] at hnodup
  obtain ⟨⟨hbefore, hbehind⟩, -⟩ := hnodup
  have hinj : ∀ i, Function.Injective fun c => crcUpdate p.crc c (b.getD i 0) := fun i =>
    hp ▸ crcUpdate_candidate_injective _
  simp only [specCrc, hfed, List.foldl_append, List.foldl_cons, foldl_crcUpdate_set hbefore,
    foldl_crcUpdate_set hbehind, getD_set_self hl]
  intro h
  have hstep := foldl_injective hinj behind h
  rw [hp] at hstep
  exact hv (crcUpdate_candidate_byte_injective _ hstep)

/-- Settles O53: both INs declare the same length, and the changed byte is fed. -/
theorem oneChangedByteChangesTheCandidateCrc : Obligations.OneChangedByteChangesTheCandidateCrc := by
  intro s s' t t' b k v hcrc hparams hb hb' hk h2 h3 h4 hv h h' herr herr'
  obtain ⟨hfits, hrcrc⟩ := exec_icrc_rcrc hb h herr
  obtain ⟨-, hrcrc'⟩ := exec_icrc_rcrc hb' h' herr'
  rw [getD_set_ne h2.symm] at hrcrc'
  rw [hrcrc, hrcrc', ← hparams]
  exact specCrc_candidate_set_ne hcrc hk h3 h4 (hk.trans_le hfits) hv

end Sys2Proof.Machine
end

section
/-! PROOFS. The outer frame received (41_outer_frame.md): DECF in full (R161, R162), and that it gives back what ENCU
and ENCB build (R164). -/

namespace Sys2Proof.Machine

/-! ## DECF -/

/-- DECF where IN holds a frame: its body's checksum against the stored one, a mismatch being an error under CFG.STRICT
only (41_outer_frame.md R162). -/
theorem execDecf_frame {s : State} {b pre body tail : Bytes} {hi lo ck : Byte} (hb : s.InIs b)
    (hf : FrameIn b pre hi lo body ck tail) :
    execDecf s =
      if s.cfg.getLsbD 1 = true ∧ ck ≠ specSum body then .next (s.failed 4)
      else .next (State.finish
        { s.setOut (0x7E :: hi :: lo :: (body ++ [ck])) with
          rlen := BitVec.ofNat 16 body.length, rtype := body.getD 0 0, rfid := body.getD 1 0,
          rsum := specSum body, rpos := BitVec.ofNat 16 pre.length }
        (decide (ck = specSum body)) false) := by
  have hok : (specSum body == ck) = decide (ck = specSum body) := by
    rw [beq_eq_decide, decide_eq_decide, eq_comm]
  rw [execDecf, withIn_of_inIs hb]
  simp only [locate_frame hf, frame_body hf, frame_checksum hf, frame_whole hf, frame_type hf, frame_id hf,
    outerChecksum_eq, hok, cfgStrict, raise_eq, Bool.and_eq_true, Bool.not_eq_true', decide_eq_false_iff_not]
  rfl

/-- DECF where IN holds no frame: the error of `Locate`. -/
theorem execDecf_noFrame {s : State} {b : Bytes} {e : Err} (hb : s.InIs b) (he : locate b = .error e) :
    execDecf s = .next (s.failed e.code.toNat) := by
  rw [execDecf, withIn_of_inIs hb]
  simp only [he, raise_eq]

/-- Settles O27: by the three cases of the first frame of IN. -/
theorem decfExtractsTheFirstFrame : Obligations.DecfExtractsTheFirstFrame := by
  intro s b hb
  refine ⟨fun pre hi lo body ck tail hf => ⟨fun hbad => ?_, fun hgood => ?_⟩, fun hnone => ?_, fun hshort => ?_⟩
  · rw [exec, execDecf_frame hb hf, if_pos hbad]
  · have haccepted : ¬(s.cfg.getLsbD 1 = true ∧ ck ≠ specSum body) := by
      rwa [not_and_or, Bool.not_eq_true, not_not]
    rw [exec, execDecf_frame hb hf, if_neg haccepted]
    refine ⟨_, rfl, wrote_setOut s _, ?_⟩
    rw [finish_eq]
    rfl
  · exact execDecf_noFrame hb (locate_noStart hnone)
  · exact execDecf_noFrame hb (locate_short hshort)

/-! ## The round trip of an addressed frame -/

/-- STATUS of a good end with CKOK, but for FQNE, is 0x10 (10_state.md R23). -/
theorem specEnd_checksumOk (fcnt : Half) : specEnd 0 true false fcnt &&& 0x3F = 0x10 := by
  unfold specEnd
  generalize decide (fcnt ≠ 0) = fqne
  revert fqne
  decide

theorem addressedBody_length (ty fid : Byte) (a : DWord) (rsvd : Byte) (p : Bytes) :
    ([ty, fid] ++ specAddr a ++ [rsvd] ++ p).length = p.length + 11 := by
  simp only [List.length_append, List.length_cons, List.length_nil, specAddr_length]
  omega

/-- The addressed shape is a frame that begins at its first byte and carries the checksum of its body, whatever start
bytes the body holds (30_encoding.md R93). -/
theorem specFrame_frameIn (ty fid : Byte) (a : DWord) (rsvd : Byte) {p : Bytes} (hl : p.length + 11 ≤ 65535) :
    FrameIn (specFrame ty fid (specAddr a) rsvd p) [] (BitVec.ofNat 8 ((p.length + 11) / 256))
      (BitVec.ofNat 8 (p.length + 11)) ([ty, fid] ++ specAddr a ++ [rsvd] ++ p)
      (specSum ([ty, fid] ++ specAddr a ++ [rsvd] ++ p)) [] := by
  refine ⟨rfl, List.not_mem_nil, ?_, ?_⟩ <;> rw [addressedBody_length]
  · rw [BitVec.toNat_ofNat, BitVec.toNat_ofNat]
    omega
  · omega

/-- OTOI and DECF after a command that left in OUT a frame with a right checksum: whatever CFG.STRICT is, DECF leaves
the frame in OUT and the fields of its body (41_outer_frame.md R162). -/
theorem otoi_decf_extracts {s : State} {f body : Bytes} {hi lo : Byte} (hout : s.OutIs f)
    (hf : FrameIn f [] hi lo body (specSum body) []) :
    ∃ t u, exec .otoi s = .next t ∧ exec .decf t = .next u ∧ u.OutIs f ∧ u.status &&& 0x3F = 0x10 ∧
      u.rlen = BitVec.ofNat 16 body.length ∧ u.rpos = 0 ∧ u.rtype = body.getD 0 0 ∧ u.rfid = body.getD 1 0 := by
  obtain ⟨t, hotoi, -, hin, -⟩ := exec_otoi_of_outIs hout
  obtain ⟨hframe, -, -⟩ := decfExtractsTheFirstFrame t f hin
  obtain ⟨-, hdecodes⟩ := hframe [] hi lo body (specSum body) [] hf
  obtain ⟨u, hdecf, hwrote, hu⟩ := hdecodes (.inr rfl)
  obtain ⟨hwhole, -, -, -⟩ := hf
  have hlt : f.length < 65536 := hout.1 ▸ s.olen.isLt
  rw [← List.nil_append (0x7E :: _), ← hwhole] at hwrote
  refine ⟨t, u, hotoi, hdecf, hwrote.outIs hlt, ?_⟩
  rw [hu, decide_eq_true rfl]
  exact ⟨specEnd_checksumOk _, rfl, rfl, rfl, rfl⟩

theorem exists_buildsAddressedFrame {i : Instr} (hi : i = .encu ∨ i = .encb) : ∃ a, BuildsAddressedFrame i a := by
  obtain rfl | rfl := hi
  · exact ⟨_, encuBuildsTheUnicastFrame⟩
  · exact ⟨_, encbBuildsTheBroadcastFrame⟩

/-- Settles O44: the frame that ENCU or ENCB leaves in OUT begins at its first byte and carries a right checksum. -/
theorem outerFrameRoundTrip : Obligations.OuterFrameRoundTrip := by
  intro i s p hi hs hp hesc hl
  obtain ⟨a, hbuilds⟩ := exists_buildsAddressedFrame hi
  obtain ⟨-, hcap⟩ := hs.cap
  obtain ⟨-, hsends⟩ := hbuilds s
  obtain ⟨-, hfits⟩ := hsends p _ hp (by omega) (specSent_unescaped hesc _).symm
  obtain ⟨t₁, hbuild, hwrote, -⟩ := hfits (by rw [specFrame_length]; exact hl)
  have hout := hwrote.outIs (by rw [specFrame_length]; omega)
  obtain ⟨t₂, t₃, hotoi, hdecf, hout₃, hstatus, hrlen, hrpos, hrtype, hrfid⟩ :=
    otoi_decf_extracts hout (specFrame_frameIn s.txtype s.txfid (a s) s.txrsvd (by omega))
  refine ⟨t₁, t₂, t₃, _, hbuild, hout, hotoi, hdecf, hout₃, hstatus, ?_, hrpos, hrtype, hrfid⟩
  rw [hrlen, addressedBody_length, BitVec.toNat_ofNat, Nat.mod_eq_of_lt (by omega)]

end Sys2Proof.Machine
end

section
/-! PROOFS. The inner bus codec (42_inner_bus.md): IENC and IDEC in full (R181, R188), and that IDEC gives back what
IENC, IENCR and IENCW build (R189). -/

namespace Sys2Proof.Machine

/-! ## IENC -/

/-- IENC ends with E_LEN on ILEN alone, before it reads IN (log entry 6): above INNER_DATA_MAX, or where `8 + k` does
not fit the length field (log entry 11). -/
theorem execIenc_tooLong {s : State} (h : s.params.innerDataMax < s.ilen.toNat ∨ 247 < s.ilen.toNat) :
    execIenc s = .next (s.failed 6) := by
  have hlong : s.params.innerDataMax < s.ilen.toNat ∨ 255 < innerHeader + s.ilen.toNat := by
    simp only [innerHeader]
    omega
  rw [execIenc, if_pos hlong, raise_eq]
  rfl

/-- IENC past the check of the length (42_inner_bus.md R181). -/
theorem execIenc_of_inIs {s : State} {d : Bytes} (hd : s.InIs d) (hmax : d.length ≤ s.params.innerDataMax)
    (hl : d.length ≤ 247) : execIenc s = .next (sendInner s.bcmd d s) := by
  have hfits : ¬(s.params.innerDataMax < s.ilen.toNat ∨ 255 < innerHeader + s.ilen.toNat) := by
    rw [← hd.1]
    simp only [innerHeader]
    omega
  rw [execIenc, if_neg hfits, withIn_of_inIs hd]

/-- Settles O28: the check of ILEN first, then IN is read. -/
theorem iencBuildsAnInnerMessage : Obligations.IencBuildsAnInnerMessage := fun _ =>
  ⟨execIenc_tooLong, fun _ hd hmax hl => buildsInnerMessage_of_sendInner (execIenc_of_inIs hd hmax hl) hl⟩

/-! ## IDEC -/

/-- IDEC ends with E_SHORT on ILEN alone, before it reads IN (log entry 6). -/
theorem execIdec_tooShort {s : State} (h : s.ilen.toNat < 3) : execIdec s = .next (s.failed 3) := by
  rw [execIdec, if_pos h, raise_eq]
  rfl

/-- IDEC on an IN of at least 3 bytes: the check of the declared length, then the CRC, a mismatch being an error under
CFG.STRICT only (42_inner_bus.md R188). -/
theorem execIdec_of_inIs {s : State} {b : Bytes} (hb : s.InIs b) (h3 : 3 ≤ b.length) :
    execIdec s =
      if (byteAt b 2).toNat < s.params.innerMin ∨ (byteAt b 2).toNat < 8 ∨ b.length < (byteAt b 2).toNat then
        .next (s.failed 3)
      else if s.cfg.getLsbD 1 = true ∧
          (byteAt b 3).toNat + 256 * (byteAt b 4).toNat ≠ (innerCrc16 s.params b).toNat then
        .next (s.failed 5)
      else .next (State.finish
        { s.setOut (slice b 8 ((byteAt b 2).toNat - 8)) with
          ddest := byteAt b 0, dsrc := byteAt b 1, blen := byteAt b 2,
          dcrc := BitVec.ofNat 16 ((byteAt b 3).toNat + 256 * (byteAt b 4).toNat),
          rcrc := innerCrc16 s.params b, dcmd := byteAt b 5,
          doff := BitVec.ofNat 16 ((byteAt b 6).toNat + 256 * (byteAt b 7).toNat) }
        false (decide ((byteAt b 3).toNat + 256 * (byteAt b 4).toNat = (innerCrc16 s.params b).toNat))) := by
  have hlong : ¬s.ilen.toNat < 3 := by rw [← hb.1]; exact Nat.not_lt.mpr h3
  have hok : (innerCrc16 s.params b == BitVec.ofNat 16 ((byteAt b 3).toNat + 256 * (byteAt b 4).toNat)) =
      decide ((byteAt b 3).toNat + 256 * (byteAt b 4).toNat = (innerCrc16 s.params b).toNat) := by
    rw [BEq.comm, ← lsbFirst_eq, lsbFirst_beq]
  rw [execIdec, if_neg hlong, withIn_of_inIs hb, ← hb.1]
  simp only [lsbFirst_eq, hok, cfgStrict, raise_eq, Bool.and_eq_true, Bool.not_eq_true', decide_eq_false_iff_not]
  rfl

/-- The CRC over the declared length does not see the bytes beyond it (40_checksum.md R138). -/
theorem innerCrc16_append (p : Params) {m : Bytes} (tail : Bytes) (h3 : 3 ≤ m.length)
    (h : (byteAt m 2).toNat ≤ m.length) : innerCrc16 p (m ++ tail) = specCrc p m (byteAt m 2).toNat := by
  have hdeclared : byteAt (m ++ tail) 2 = byteAt m 2 := List.getD_append _ _ _ _ h3
  have hfits : (byteAt (m ++ tail) 2).toNat ≤ (m ++ tail).length := by
    rw [hdeclared, List.length_append]
    omega
  rw [innerCrc16_eq p _ hfits, hdeclared]
  exact specCrc_congr p fun k hk _ _ => List.getD_append _ _ _ _ (by omega)

/-- IDEC where IN begins with a whole message: its fields, its data and its CRC, whatever follows it. -/
theorem execIdec_message {s : State} {d sr n lo hi c ol oh : Byte} {data tail : Bytes} {crc : Half}
    (hin : s.InIs (d :: sr :: n :: lo :: hi :: c :: ol :: oh :: (data ++ tail))) (hn : n.toNat = 8 + data.length)
    (hmin : s.params.innerMin ≤ n.toNat)
    (hcrc : crc = specCrc s.params (d :: sr :: n :: lo :: hi :: c :: ol :: oh :: data) n.toNat) :
    execIdec s =
      if s.cfg.getLsbD 1 = true ∧ lo.toNat + 256 * hi.toNat ≠ crc.toNat then .next (s.failed 5)
      else .next (State.finish
        { s.setOut data with
          ddest := d, dsrc := sr, blen := n, dcrc := BitVec.ofNat 16 (lo.toNat + 256 * hi.toNat), rcrc := crc,
          dcmd := c, doff := BitVec.ofNat 16 (ol.toNat + 256 * oh.toNat) }
        false (decide (lo.toNat + 256 * hi.toNat = crc.toNat))) := by
  set m := d :: sr :: n :: lo :: hi :: c :: ol :: oh :: data with hm
  have hlen : m.length = n.toNat := by simp only [hm, List.length_cons]; omega
  have happend : d :: sr :: n :: lo :: hi :: c :: ol :: oh :: (data ++ tail) = m ++ tail := rfl
  have hdeclared : byteAt (m ++ tail) 2 = n := rfl
  have hcrc16 : innerCrc16 s.params (m ++ tail) = crc := by
    rw [hcrc]
    exact innerCrc16_append s.params tail (by omega) hlen.ge
  have hdata : slice (m ++ tail) 8 (n.toNat - 8) = data := by
    rw [hn, Nat.add_sub_cancel_left]
    exact List.take_left
  have hwhole : ¬(n.toNat < s.params.innerMin ∨ n.toNat < 8 ∨ (m ++ tail).length < n.toNat) := by
    rw [List.length_append]
    omega
  rw [happend] at hin
  rw [execIdec_of_inIs hin (by rw [List.length_append]; omega), hcrc16, hdeclared, if_neg hwhole, hdata]
  rfl

/-- Settles O31: the check of ILEN, the check of the declared length, and the message of that length. -/
theorem idecDecodesTheInnerMessage : Obligations.IdecDecodesTheInnerMessage := by
  intro s
  refine ⟨execIdec_tooShort, fun b hb h3 hshort => ?_, fun d sr n lo hi c ol oh data tail crc hin hn hmin hcrc => ?_⟩
  · rw [exec, execIdec_of_inIs hb h3]
    exact if_pos hshort
  · rw [exec, execIdec_message hin hn hmin hcrc]
    refine ⟨fun hbad => if_pos hbad, fun hgood => ?_⟩
    have haccepted : ¬(s.cfg.getLsbD 1 = true ∧ lo.toNat + 256 * hi.toNat ≠ crc.toNat) := by
      rwa [not_and_or, Bool.not_eq_true, not_not]
    refine ⟨_, if_neg haccepted, wrote_setOut s data, ?_⟩
    rw [finish_eq]
    rfl

/-! ## The round trip of an inner message -/

/-- STATUS of a good end with CRCOK, but for FQNE, is 0x20 (10_state.md R23). -/
theorem specEnd_crcOk (fcnt : Half) : specEnd 0 false true fcnt &&& 0x3F = 0x20 := by
  unfold specEnd
  generalize decide (fcnt ≠ 0) = fqne
  revert fqne
  decide

/-- The two bytes of a 16-bit field, low byte first, have its value (20_memory.md R63). -/
theorem toNat_split (v : Half) : (v.setWidth 8 : Byte).toNat + 256 * ((v >>> 8).setWidth 8 : Byte).toNat = v.toNat := by
  have h := lsbFirst_beq (v.setWidth 8) ((v >>> 8).setWidth 8) v
  rw [lsbFirst_split, beq_self_eq_true] at h
  exact of_decide_eq_true h.symm

/-- A built message carries the CRC of its own bytes: the field is left out of it (30_encoding.md R99). -/
theorem specCrc_specInner (p : Params) (d s c : Byte) (off crc : Half) (data : Bytes) :
    specCrc p (specInner d s c off crc data) (8 + data.length) = specInnerCrc p d s c off data :=
  specCrc_crcField ..

/-- OTOI and IDEC after a command that left in OUT a message with its own CRC: whatever CFG.STRICT is, IDEC leaves the
data in OUT and the message's fields (42_inner_bus.md R188). -/
theorem otoi_idec_decodes {s : State} {d sr c : Byte} {off crc : Half} {data : Bytes}
    (hout : s.OutIs (specInner d sr c off crc data)) (hcrc : crc = specInnerCrc s.params d sr c off data)
    (hl : data.length ≤ 247) (hmin : s.params.innerMin ≤ 8 + data.length) :
    ∃ t u, exec .otoi s = .next t ∧ exec .idec t = .next u ∧ u.OutIs data ∧ u.status &&& 0x3F = 0x20 ∧
      u.ddest = d ∧ u.dsrc = sr ∧ u.dcmd = c ∧ u.doff = off ∧ u.blen.toNat = 8 + data.length ∧ u.dcrc = u.rcrc := by
  obtain ⟨t, hotoi, -, hin, -⟩ := exec_otoi_of_outIs hout
  have hparams := exec_params hotoi
  have hlen : (BitVec.ofNat 8 (8 + data.length)).toNat = 8 + data.length := by
    rw [BitVec.toNat_ofNat, Nat.mod_eq_of_lt (by omega)]
  have hown : crc = specCrc t.params (specInner d sr c off crc data) (BitVec.ofNat 8 (8 + data.length)).toNat := by
    rw [hlen, specCrc_specInner, hparams]
    exact hcrc
  obtain ⟨-, -, hmessage⟩ := idecDecodesTheInnerMessage t
  obtain ⟨-, hdecodes⟩ := hmessage d sr _ _ _ c _ _ data [] crc (by rw [List.append_nil]; exact hin) hlen
    (by rw [hlen, hparams]; exact hmin) hown
  obtain ⟨u, hidec, hwrote, hu⟩ := hdecodes (.inr (toNat_split crc))
  refine ⟨t, u, hotoi, hidec, hwrote.outIs (by omega), ?_⟩
  rw [hu, toNat_split, toNat_split, BitVec.ofNat_toNat, BitVec.ofNat_toNat, BitVec.setWidth_eq, BitVec.setWidth_eq,
    decide_eq_true rfl]
  exact ⟨specEnd_crcOk _, rfl, rfl, rfl, rfl, hlen, rfl⟩

/-- What a command that builds an inner message leaves in OUT comes back through OTOI and IDEC. -/
theorem innerRoundTripOf_of_builds {i : Instr} {s : State} {c : Byte} {d : Bytes} (h : BuildsInnerMessage i s c d)
    (hl : d.length ≤ 247) (hmin : s.params.innerMin ≤ 8 + d.length) : InnerRoundTripOf i s c d := by
  obtain ⟨t₁, crc, hbuild, hcrc, hwrote, -⟩ := h
  have hparams := exec_params hbuild
  have hout := hwrote.outIs (by rw [specInner_length]; omega)
  obtain ⟨t₂, t₃, hotoi, hidec, hfields⟩ :=
    otoi_idec_decodes hout (by rw [hparams]; exact hcrc) hl (by rw [hparams]; exact hmin)
  exact ⟨t₁, t₂, t₃, hbuild, hotoi, hidec, hfields⟩

/-- Settles O45: each of the three commands builds an inner message. -/
theorem innerMessageRoundTrip : Obligations.InnerMessageRoundTrip := by
  intro s
  obtain ⟨-, hienc⟩ := iencBuildsAnInnerMessage s
  obtain ⟨-, hiencw⟩ := iencwBuildsAWriteRequest s
  refine ⟨fun d hd hmax hl hmin => ?_, fun hmin => ?_, fun d hd hl hmin => ?_⟩
  · exact innerRoundTripOf_of_builds (hienc d hd hmax hl) hl hmin
  · exact innerRoundTripOf_of_builds (iencrBuildsAReadRequest s) (by simp) hmin
  · exact innerRoundTripOf_of_builds (hiencw d hd hl) (by omega) hmin

end Sys2Proof.Machine
end

section
/-! PROOFS. The stream demultiplexer (43_demux.md): DEMUX and FPOP in full (R201, R205), and that DEMUX recovers the
frames of a concatenation (R202). -/

namespace Sys2Proof.Machine

/-! ## The candidates of a byte sequence -/

/-- No byte is lost or moved, whatever the bytes are (43_demux.md R202). -/
theorem split_flatten (b : Bytes) : (split b).flatten = b := splitFrom_flatten b []

/-- Every candidate is non-empty and holds a start byte nowhere but first. -/
theorem split_candidate {b f : Bytes} (hf : f ∈ split b) : f ≠ [] ∧ 0x7E ∉ f.tail :=
  ⟨splitFrom_nonempty b [] f hf, splitFrom_noInnerStart b [] List.not_mem_nil f hf⟩

/-- One candidate for each start byte, and one more for leading bytes. -/
theorem split_length (b : Bytes) :
    (split b).length = b.count 0x7E + (if b ≠ [] ∧ b.head? ≠ some 0x7E then 1 else 0) := by
  simp only [split, splitFrom_length, ne_self_iff_false, false_or]

/-- There are at most as many candidates as bytes. -/
theorem split_length_le (b : Bytes) : (split b).length ≤ b.length := by
  have hle := length_le_flatten_length fun f hf => (split_candidate (b := b) hf).1
  rwa [split_flatten] at hle

/-! ## DEMUX -/

/-- DEMUX on an IN of written bytes: FQ and FCNT are replaced, and STATUS follows FCNT (43_demux.md R201). -/
theorem exec_demux_of_inIs {s : State} {b : Bytes} (hb : s.InIs b) :
    exec .demux s = .next { s with
      fq := split b, fcnt := BitVec.ofNat 16 (split b).length,
      status := specEnd 0 false false (BitVec.ofNat 16 (split b).length) } := by
  rw [exec, execDemux, withIn_of_inIs hb]
  simp only [finish_eq]

/-- FCNT can hold the number of candidates of IN: ILEN, a 16-bit register, holds the number of its bytes. -/
theorem State.InIs.toNat_split_length {s : State} {b : Bytes} (hb : s.InIs b) :
    (BitVec.ofNat 16 (split b).length).toNat = (split b).length := by
  have hlen : b.length < 2 ^ 16 := hb.1 ▸ s.ilen.isLt
  rw [BitVec.toNat_ofNat, Nat.mod_eq_of_lt ((split_length_le b).trans_lt hlen)]

/-- Settles O32: the new FQ is the split of IN, whose laws these are. -/
theorem demuxSplitsIn : Obligations.DemuxSplitsIn := by
  intro s b hb
  exact ⟨_, exec_demux_of_inIs hb, split_flatten b, fun _ hf => split_candidate hf, splitFrom_tailHeads b [],
    split_length b, rfl⟩

/-- Settles O47: the split of a concatenation of frames is the frames, and FCNT can count them. -/
theorem demuxRecoversConcatenatedFrames : Obligations.DemuxRecoversConcatenatedFrames := by
  intro s frames hb hframes
  have hsplit := split_frames frames hframes
  exact ⟨_, exec_demux_of_inIs hb, hsplit, hb.toNat_split_length.trans (congrArg List.length hsplit)⟩

/-! ## FPOP -/

theorem exec_fpop_of_nil {s : State} (h : s.fq = []) : exec .fpop s = .next (s.failed 8) := by
  simp only [exec, execFpop, h, raise_eq]
  rfl

/-- FPOP on a queue that is not empty: the first candidate goes to OUT, and FQ and FCNT lose it (43_demux.md R205). -/
theorem exec_fpop_of_cons {s : State} {f : Bytes} {q : List Bytes} (h : s.fq = f :: q) :
    exec .fpop s = .next { s.setOut f with
      fq := q, fcnt := s.fcnt - 1, status := specEnd 0 false false (s.fcnt - 1) } := by
  simp only [exec, execFpop, h, finish_eq]
  rfl

/-- Settles O33: by the two cases of FQ. -/
theorem fpopMovesTheFirstCandidate : Obligations.FpopMovesTheFirstCandidate := by
  intro s
  refine ⟨exec_fpop_of_nil, fun f q hq => ?_⟩
  exact ⟨_, exec_fpop_of_cons hq, wrote_setOut s f, rfl⟩

end Sys2Proof.Machine
end

section
/-! PROOFS. The control commands (44_control.md): NOP, CLR, OTOI and SRST in full (R215 to R218). -/

namespace Sys2Proof.Machine

/-- STATUS of a good end with FQ empty: FQNE is 0 with the rest (10_state.md R23, R33). -/
theorem specEnd_of_empty_queue : specEnd 0 false false 0 = 0x00 := by decide

/-- Settles O18: OUT is what OTOI reads, so exactly its bytes are stored in IBUF. -/
theorem otoiCopiesOutToIn : Obligations.OtoiCopiesOutToIn := by
  intro s f hf
  obtain ⟨t, hexec, hstored, -, ht⟩ := exec_otoi_of_outIs hf
  exact ⟨t, hexec, hstored, ht⟩

/-- Settles O16: NOP is the common end of a command and nothing more. -/
theorem nopOnlyWritesStatus : Obligations.NopOnlyWritesStatus := by
  intro s
  rw [exec, execNop, finish_eq]

/-- Settles O17: FCNT is 0 before STATUS is written, so FQNE is 0 too. -/
theorem clrEmptiesInOutAndQueue : Obligations.ClrEmptiesInOutAndQueue := by
  intro s
  rw [exec, execClr, finish_eq, specEnd_of_empty_queue]

/-- Settles O19: SRST is the reset of every register with the CMD that the step stored. -/
theorem srstResetsAllButCmd : Obligations.SrstResetsAllButCmd := by
  intro s
  have hexec : exec .srst s = .next (s.reinit s.cmd) := rfl
  exact ⟨_, hexec, s.reinit_cmd _, s.reinit_atReset _, s.reinit_params _, s.reinit_pending _, s.reinit_answer _,
    s.reinit_fresh _⟩

end Sys2Proof.Machine
end

section
/-! PROOFS. A host read session (45_host_sessions.md R248 to R251): what one request and its response do, and that
the record is the data of accepted pages. -/

namespace Sys2Proof.Machine

/-! ## One request and its response -/

/-- The states in which a read session sends its next request (45_host_sessions.md R248 step 1). -/
def ReadPhase.Asks (p : ReadPhase) : Prop := p = .idle ∨ p = .requesting ∨ p = .awaitingResponse

theorem readRequest_of_asks {h : HostParams} {s : ReadSession} (hs : s.phase.Asks) (hp : s.pages < h.readMaxPages) :
    readRequest h s = { s with phase := .awaitingResponse } := by
  rcases hs with hs | hs | hs <;> simp [readRequest, hs, hp]

theorem readRequest_of_capped {h : HostParams} {s : ReadSession} (hs : s.phase.Asks) (hp : h.readMaxPages ≤ s.pages) :
    readRequest h s = { s with phase := .done } := by
  rcases hs with hs | hs | hs <;> simp [readRequest, hs, hp]

theorem readAccepts_iff {h : HostParams} {s : ReadSession} {e : Bytes} :
    readAccepts h s e = true ↔ h.extractedMin ≤ e.length ∧ s.last ≠ some e := by
  simp [readAccepts]

theorem readStep_of_capped {h : HostParams} {s : ReadSession} (hs : s.phase.Asks) (hp : h.readMaxPages ≤ s.pages)
    (r : Option Bytes) : readStep h s r = { s with phase := .done } := by
  rw [readStep, readRequest_of_capped hs hp]
  rfl

theorem readStep_of_discarded {h : HostParams} {s : ReadSession} {r : Option Bytes} (hs : s.phase.Asks)
    (hp : s.pages < h.readMaxPages) (hr : ∀ e, r = some e → ¬ readAccepts h s e = true) :
    readStep h s r = { s with phase := .awaitingResponse, retries := s.retries + 1 } := by
  rw [readStep, readRequest_of_asks hs hp]
  cases r with
  | none => rfl
  | some e =>
    have hrejected : ¬ readAccepts h { s with phase := .awaitingResponse } e = true := hr e rfl
    simp only [readReceive, if_neg hrejected, readAccumulate]

theorem readStep_of_accepted {h : HostParams} {s : ReadSession} {e : Bytes} (hs : s.phase.Asks)
    (hp : s.pages < h.readMaxPages) (he : readAccepts h s e = true) :
    readStep h s (some e) = { s with
      phase := if s.pages + 1 = h.readMaxPages then .done else .requesting, last := some e,
      record := s.record ++ pageData e, pages := s.pages + 1, baseOffset := nextPage s.baseOffset s.pageSize,
      bytesTransferred := s.bytesTransferred + BitVec.ofNat 32 (pageData e).length } := by
  have haccepted : readAccepts h { s with phase := .awaitingResponse } e = true := he
  have hcap : h.readMaxPages ≤ s.pages + 1 ↔ s.pages + 1 = h.readMaxPages := by omega
  rw [readStep, readRequest_of_asks hs hp]
  simp only [readReceive, if_pos haccepted, readAccumulate, hcap]

/-- The data portion of an extracted frame, by its two ends (45_host_sessions.md R250). -/
theorem pageData_eq_drop_take (e : Bytes) : pageData e = (e.take (e.length - 1)).drop 16 := by
  rw [pageData, slice, List.drop_take, Nat.sub_sub]

/-- Settles O54: none of these responses passes the acceptance test. -/
theorem readSessionDiscards : Obligations.ReadSessionDiscards := by
  intro h s r hs hp hr
  refine readStep_of_discarded hs hp fun e he haccepts => ?_
  obtain ⟨hlong, hnovel⟩ := readAccepts_iff.mp haccepts
  rcases hr e he with hshort | hrepeated
  · omega
  · exact hnovel hrepeated

/-- Settles O57: the page passes the acceptance test. -/
theorem readSessionAcceptsANovelPage : Obligations.ReadSessionAcceptsANovelPage := by
  intro h s e hs hp hlong hnovel
  rw [readStep_of_accepted hs hp (readAccepts_iff.mpr ⟨hlong, hnovel⟩), pageData_length, pageData_eq_drop_take]
  rfl

/-! ## The record of a session -/

theorem nextPage_ofNat (n : Nat) : nextPage (BitVec.ofNat 16 n) 12 = BitVec.ofNat 16 (n + 12) :=
  (BitVec.ofNat_add n 12).symm

/-- A read session of a slot that stands between two steps, or is done, and has accepted these frames of these
responses. -/
structure ReadSession.HasAccepted (h : HostParams) (slot : Nat) (responses : List (Option Bytes))
    (accepted : List Bytes) (s : ReadSession) : Prop where
  phase : s.phase.Asks ∨ s.phase = .done
  pageSize : s.pageSize = 12
  given : accepted.Sublist (responses.filterMap id)
  long : ∀ e ∈ accepted, h.extractedMin ≤ e.length
  novel : accepted.IsChain (· ≠ ·)
  last : s.last = accepted.getLast?
  pages : s.pages = accepted.length
  cap : s.pages ≤ h.readMaxPages
  record : s.record = accepted.flatMap pageData
  baseOffset : s.baseOffset = BitVec.ofNat 16 (128 * slot + 12 * accepted.length)

namespace ReadSession.HasAccepted

variable {h : HostParams} {slot : Nat} {responses : List (Option Bytes)} {accepted : List Bytes} {s : ReadSession}

theorem start (h : HostParams) (slot : Nat) : HasAccepted h slot [] [] (readStart slot) where
  phase := .inl (.inl rfl)
  pageSize := rfl
  given := .slnil
  long := by simp
  novel := .nil
  last := rfl
  pages := rfl
  cap := Nat.zero_le _
  record := rfl
  baseOffset := rfl

/-- A response that changes no more than the phase and the retries adds no accepted frame. -/
theorem skip (hs : HasAccepted h slot responses accepted s) (r : Option Bytes) {p : ReadPhase}
    (hp : p.Asks ∨ p = .done) (n : BitVec 32) :
    HasAccepted h slot (responses ++ [r]) accepted { s with phase := p, retries := n } where
  phase := hp
  pageSize := hs.pageSize
  given := by
    rw [List.filterMap_append]
    exact hs.given.trans (List.sublist_append_left _ _)
  long := hs.long
  novel := hs.novel
  last := hs.last
  pages := hs.pages
  cap := hs.cap
  record := hs.record
  baseOffset := hs.baseOffset

/-- A page that passes the acceptance test is one accepted frame more. -/
theorem accept (hs : HasAccepted h slot responses accepted s) {e : Bytes} (hasks : s.phase.Asks)
    (hp : s.pages < h.readMaxPages) (he : readAccepts h s e = true) :
    HasAccepted h slot (responses ++ [some e]) (accepted ++ [e]) (readStep h s (some e)) := by
  obtain ⟨hlong, hnovel⟩ := readAccepts_iff.mp he
  rw [readStep_of_accepted hasks hp he]
  exact {
    phase := by
      dsimp only
      split
      · exact .inr rfl
      · exact .inl (.inr (.inl rfl))
    pageSize := hs.pageSize
    given := by
      rw [List.filterMap_append]
      exact hs.given.append (.refl _)
    long := fun f hf => by
      rcases List.mem_append.mp hf with hold | hnew
      · exact hs.long f hold
      · rwa [List.mem_singleton.mp hnew]
    novel := by
      refine List.isChain_append.mpr ⟨hs.novel, .singleton e, fun x hx y hy hxy => hnovel ?_⟩
      obtain rfl : e = y := Option.some.inj hy
      rw [hs.last, ← hxy]
      exact hx
    last := by simp
    pages := by simp [hs.pages]
    cap := hp
    record := by simp [hs.record]
    baseOffset := by
      dsimp only
      rw [hs.baseOffset, hs.pageSize, nextPage_ofNat, List.length_append, List.length_singleton, Nat.add_assoc,
        ← Nat.mul_succ] }

/-- One response is accepted, or it is discarded, or the session has its pages. -/
theorem step (hs : HasAccepted h slot responses accepted s) (r : Option Bytes) :
    ∃ accepted', HasAccepted h slot (responses ++ [r]) accepted' (readStep h s r) := by
  rcases hs.phase with hasks | hdone
  · rcases Nat.lt_or_ge s.pages h.readMaxPages with hp | hp
    · by_cases haccepted : ∃ e, r = some e ∧ readAccepts h s e = true
      · obtain ⟨e, rfl, he⟩ := haccepted
        exact ⟨_, hs.accept hasks hp he⟩
      · rw [readStep_of_discarded hasks hp fun e hr he => haccepted ⟨e, hr, he⟩]
        exact ⟨_, hs.skip r (.inl (.inr (.inr rfl))) _⟩
    · rw [readStep_of_capped hasks hp]
      exact ⟨_, hs.skip r (.inr rfl) s.retries⟩
  · rw [readStep_done hdone]
    exact ⟨_, hs.skip r hs.phase s.retries⟩

/-- Whatever a read session is given, it has accepted some frames of it. -/
theorem exists_foldl (h : HostParams) (slot : Nat) (responses : List (Option Bytes)) :
    ∃ accepted, HasAccepted h slot responses accepted (responses.foldl (readStep h) (readStart slot)) := by
  induction responses using List.reverseRecOn with
  | nil => exact ⟨[], start h slot⟩
  | append_singleton responses r ih =>
    obtain ⟨accepted, hs⟩ := ih
    rw [List.foldl_append]
    exact hs.step r

/-- No accepted frame equals the one before it, by index. -/
theorem getElem?_ne_succ (hs : HasAccepted h slot responses accepted s) {k : Nat} (hk : k + 1 < accepted.length) :
    accepted[k]? ≠ accepted[k + 1]? := by
  rw [List.getElem?_eq_getElem (by omega), List.getElem?_eq_getElem hk]
  exact fun heq => List.isChain_iff_getElem.mp hs.novel k hk (Option.some.inj heq)

end ReadSession.HasAccepted

/-- Settles O58: the frames that the session has accepted. -/
theorem readSessionRepeatsNoNeighbouringFrame : Obligations.ReadSessionRepeatsNoNeighbouringFrame := by
  intro h slot responses
  obtain ⟨accepted, hs⟩ := ReadSession.HasAccepted.exists_foldl h slot responses
  exact ⟨accepted, hs.given, hs.long, fun _ hk => hs.getElem?_ne_succ hk, hs.pages ▸ hs.cap, hs.record,
    hs.baseOffset⟩

end Sys2Proof.Machine
end

section
/-! PROOFS. A host write session (45_host_sessions.md R255 to R261): what one write and readback pair does, and how
a page ends that mismatches up to the retry bound. -/

namespace Sys2Proof.Machine

/-! ## One write and readback pair -/

/-- The states in which a write session sends its next write request (45_host_sessions.md R255). -/
def WritePhase.Sends (p : WritePhase) : Prop := p = .idle ∨ p = .advancing ∨ p = .retrying

/-- The session stands before a write request, with source data left for it. -/
structure WriteSession.Sends (s : WriteSession) : Prop where
  phase : s.phase.Sends
  remaining : s.remaining ≠ []

section
variable {h : HostParams} {s : WriteSession} {r : Option Bytes}

theorem writeReadback_writeRequest (hs : s.Sends) :
    writeReadback (writeRequest s) = { s with phase := .verifying } := by
  obtain ⟨hphase, hrem⟩ := hs
  rcases hphase with hphase | hphase | hphase <;> simp [writeRequest, writeReadback, hphase, hrem]

/-- The page is tried again while the bound is not reached (45_host_sessions.md R257). -/
theorem writeStep_of_retry (hs : s.Sends) (hr : r.map pageData ≠ some (writeChunk h s))
    (hbound : s.retries.toNat < h.writeRetryMax) :
    writeStep h s r = { s with phase := .retrying, retries := s.retries + 1 } := by
  have hmismatch : r.map pageData ≠ some (writeChunk h { s with phase := .verifying }) := hr
  rw [writeStep, writeReadback_writeRequest hs]
  simp only [writeVerify, if_neg hmismatch, if_pos hbound, writeNext]

/-- At the bound the page is reported as failed, and the policy abort ends the session there
(45_host_sessions.md R258). -/
theorem writeStep_of_exhausted (hs : s.Sends) (hr : r.map pageData ≠ some (writeChunk h s))
    (hbound : ¬ s.retries.toNat < h.writeRetryMax) (ha : h.abandon = .abort) :
    writeStep h s r = { s with phase := .abandoned, reports := s.reports ++ [.failed s.pageIndex r] } := by
  have hmismatch : r.map pageData ≠ some (writeChunk h { s with phase := .verifying }) := hr
  rw [writeStep, writeReadback_writeRequest hs]
  simp only [writeVerify, if_neg hmismatch, if_neg hbound, writeNext, ha]

/-- A page that is read back as it was written is reported and passed (45_host_sessions.md R257). -/
theorem writeStep_of_match (hs : s.Sends) (hr : r.map pageData = some (writeChunk h s)) :
    writeStep h s r = writeAdvance { s with
      phase := .matched,
      bytesTransferred := s.bytesTransferred + BitVec.ofNat 32 (s.remaining.take s.pageSize.toNat).length,
      reports := s.reports ++ [.written s.pageIndex] } := by
  have hmatch : r.map pageData = some (writeChunk h { s with phase := .verifying }) := hr
  rw [writeStep, writeReadback_writeRequest hs]
  simp only [writeVerify, if_pos hmatch, writeNext]

end

/-! ## The retries of one page -/

/-- The session `s` at the first try of a page, after `n` retries of it. -/
def WriteSession.retried (s : WriteSession) (n : Nat) : WriteSession :=
  { s with phase := if n = 0 then s.phase else .retrying, retries := BitVec.ofNat 32 n }

theorem WriteSession.retried_zero {s : WriteSession} (h : s.retries = 0) : s.retried 0 = s := by
  have hretries : BitVec.ofNat 32 0 = s.retries := h.symm
  rw [WriteSession.retried, if_pos rfl, hretries]

theorem WriteSession.retried_succ (s : WriteSession) (n : Nat) :
    s.retried (n + 1) = { s with phase := .retrying, retries := BitVec.ofNat 32 (n + 1) } := rfl

theorem WriteSession.retried_retries_toNat (s : WriteSession) {n : Nat} (hn : n < 2 ^ 32) :
    (s.retried n).retries.toNat = n := Nat.mod_eq_of_lt hn

/-- The chunk of the page depends on neither the phase nor the retries. -/
theorem writeChunk_retried (h : HostParams) (s : WriteSession) (n : Nat) :
    writeChunk h (s.retried n) = writeChunk h s := rfl

theorem WriteSession.Sends.retried {s : WriteSession} (hs : s.Sends) (n : Nat) : (s.retried n).Sends where
  phase := by
    cases n with
    | zero => exact hs.phase
    | succ n => exact .inr (.inr rfl)
  remaining := hs.remaining

/-- A session at the first try of a page stands before a write request. -/
theorem WriteSession.Sends.of_firstTry {s : WriteSession} (hs : s.phase = .idle ∨ s.phase = .advancing)
    (hrem : s.remaining ≠ []) : s.Sends := ⟨hs.imp_right .inl, hrem⟩

/-- A mismatch within the bound is one retry more. -/
theorem writeStep_retried {h : HostParams} {s : WriteSession} {r : Option Bytes} {n : Nat} (hs : s.Sends)
    (hmax : h.writeRetryMax < 2 ^ 32) (hn : n < h.writeRetryMax) (hr : r.map pageData ≠ some (writeChunk h s)) :
    writeStep h (s.retried n) r = s.retried (n + 1) := by
  have hbound : (s.retried n).retries.toNat < h.writeRetryMax := by
    rwa [s.retried_retries_toNat (hn.trans hmax)]
  rw [writeStep_of_retry (hs.retried n) (by rwa [writeChunk_retried]) hbound, WriteSession.retried_succ,
    BitVec.ofNat_add]
  rfl

/-- Mismatches within the bound only count retries: nothing of the page is consumed or reported
(45_host_sessions.md R257). -/
theorem foldl_writeStep_of_mismatches {h : HostParams} {s : WriteSession} {bad : List (Option Bytes)} (hs : s.Sends)
    (hretries : s.retries = 0) (hmax : h.writeRetryMax < 2 ^ 32) (hbound : bad.length ≤ h.writeRetryMax)
    (hbad : ∀ r ∈ bad, r.map pageData ≠ some (writeChunk h s)) :
    bad.foldl (writeStep h) s = s.retried bad.length := by
  induction bad using List.reverseRecOn with
  | nil => exact (WriteSession.retried_zero hretries).symm
  | append_singleton bad r ih =>
    rw [List.length_append, List.length_singleton] at hbound ⊢
    have hlt : bad.length < h.writeRetryMax := hbound
    rw [List.foldl_append, ih hlt.le fun r' hr' => hbad r' (List.mem_append_left _ hr')]
    exact writeStep_retried hs hmax hlt (hbad r (by simp))

/-- Settles O59: the mismatches count retries, and the match passes the page. -/
theorem writeSessionRetriesThenAdvances : Obligations.WriteSessionRetriesThenAdvances := by
  intro h s bad good hs hretries hrem hmax hbound hbad hgood
  have hsends := WriteSession.Sends.of_firstTry hs hrem
  have hmatch : (some good).map pageData = some (writeChunk h s) := congrArg some hgood
  rw [List.foldl_append, foldl_writeStep_of_mismatches hsends hretries hmax hbound hbad, List.foldl_cons,
    List.foldl_nil, writeStep_of_match (hsends.retried _) hmatch]
  exact ⟨rfl, rfl, rfl, rfl, rfl, rfl⟩

/-- Settles O55: below the bound the last mismatch is one retry more; at it, it abandons the page for good. -/
theorem writeSessionStopsAtTheRetryBound : Obligations.WriteSessionStopsAtTheRetryBound := by
  intro h s bad final later hs hretries hrem habort hmax hmismatch
  have hsends := WriteSession.Sends.of_firstTry hs hrem
  refine ⟨fun hlt => ?_, fun heq => ?_⟩
  · have hlength : (bad ++ [final]).length = bad.length + 1 := List.length_append
    rw [foldl_writeStep_of_mismatches hsends hretries hmax (hlength ▸ hlt) hmismatch, hlength,
      WriteSession.retried_succ]
  · have hbad : ∀ r ∈ bad, r.map pageData ≠ some (writeChunk h s) :=
      fun r hr => hmismatch r (List.mem_append_left _ hr)
    have hexhausted : ¬ (s.retried bad.length).retries.toNat < h.writeRetryMax := by
      rw [heq, s.retried_retries_toNat hmax]
      exact lt_irrefl _
    rw [List.foldl_append, foldl_writeStep_of_mismatches hsends hretries hmax heq.le hbad, List.foldl_cons,
      writeStep_of_exhausted (hsends.retried _) (hmismatch final (by simp)) hexhausted habort, heq]
    exact List.foldl_fixed' (writeStep_abandoned rfl habort) later

end Sys2Proof.Machine
end

section
/-! PROOFS. The errors of the commands (60_exceptions.md R280 to R283): what a failed command leaves behind, and which
error each command can end with. -/

namespace Sys2Proof.Machine

/-! ## The codes -/

/-- `STATUS.ERR` after `raise` is the error's code of R280. -/
theorem State.raise_err_toNat (s : State) (e : Err) : ((s.raise e).status &&& 0x0F).toNat = e.code.toNat := by
  have hfits : (e.code.setWidth 8 : Byte).toNat = e.code.toNat := BitVec.toNat_setWidth_of_le (by decide)
  rw [State.raise_err, hfits]

/-- The codes of the errors are 1 to 9 (60_exceptions.md R280). -/
theorem Err.code_bounds (e : Err) : 1 ≤ e.code.toNat ∧ e.code.toNat ≤ 9 := by cases e <;> decide

/-- The errors a command raises in the model have the codes that R283 lists for it. -/
theorem code_mem_errorsListed {strict : Bool} {i : Instr} {e : Err} (h : e ∈ errorsOf strict i) :
    e.code.toNat ∈ errorsListed strict i := by
  have hmap : errorsListed strict i = (errorsOf strict i).map fun e => e.code.toNat := by
    cases i with
    | decf | idec => cases strict <;> rfl
    | _ => rfl
  rw [hmap]
  exact List.mem_map_of_mem h

/-! ## How a command fails -/

/-- A command that answers a next state ends with `STATUS.ERR = 0` or raised one of its errors. -/
theorem exec_err {i : Instr} {s t : State} (h : exec i s = .next t) :
    t.status &&& 0x0F = 0 ∨ ∃ e ∈ errorsOf (cfgStrict s) i, t = s.raise e := by
  obtain hraised | ⟨-, rfl⟩ | ⟨u, ck, crc, rfl, -⟩ := exec_next h
  · exact .inr hraised
  · exact .inl (by rw [State.reinit_status]; rfl)
  · exact .inl (State.finish_err u ck crc)

/-- Settles O34: the command raised an error, and `raise` writes STATUS and ERRLOG alone. -/
theorem failedCommandChangesOnlyStatusAndErrlog : Obligations.FailedCommandChangesOnlyStatusAndErrlog := by
  intro i s t h hfailed
  obtain hgood | ⟨e, -, rfl⟩ := exec_err h
  · exact absurd hgood hfailed
  · obtain ⟨hlow, hhigh⟩ := e.code_bounds
    have hcode : (s.raise e).status &&& 0x0F = BitVec.ofNat 8 e.code.toNat := by
      rw [← s.raise_err_toNat e, BitVec.ofNat_toNat, BitVec.setWidth_eq]
    exact ⟨e.code.toNat, hlow, hhigh, hcode, raise_eq s e⟩

/-- Settles O35: an error the command raised is one of its own, and those have the listed codes. -/
theorem errorsPerCommand : Obligations.ErrorsPerCommand := by
  intro i s t h
  obtain hgood | ⟨e, hown, rfl⟩ := exec_err h
  · exact .inl (congrArg BitVec.toNat hgood)
  · exact .inr (s.raise_err_toNat e ▸ code_mem_errorsListed hown)

end Sys2Proof.Machine
end

section
/-! PROOFS. Idling (70_reset_and_hazards.md R312): the PTFC starts nothing of its own accord. -/

namespace Sys2Proof.Machine

/-- Settles O5: with no event to come, `advance` takes its idle branch. -/
theorem idleWithoutAnAccess : Obligations.IdleWithoutAnAccess := by
  intro s hnone
  exact step_idle hnone

end Sys2Proof.Machine
end
